-- ==== Sys2Proof/Word.lean ====
section
/-! DEFINITION. The widths of 00_scope.md rule R6: `W` (32 bits), `BW` and `IW` (8 bits), `CW` (16 bits).
Every value is unsigned (R7); the operators of R8 are those of `BitVec`. -/

namespace Sys2Proof

/-- A 32-bit unsigned value: the accumulator, the output register, a table entry (R6 `W`, R100). -/
abbrev Word := BitVec 32

/-- An 8-bit unsigned value: a message byte (R6 `BW`) or a table index (R6 `IW`). -/
abbrev Byte := BitVec 8

/-- A 16-bit command word, `cmd[15:0]` (R6 `CW`, R60). -/
abbrev CmdWord := BitVec 16

end Sys2Proof
end

