-- ==== Sys2Proof/Syntax.lean ====
section
/-! DEFINITION. The five commands of the block (30_encoding.md rule R62, spec/opcode_table.json): one constructor a
row. The assembler's lines (R65, R66) are in Machine/Assembler.lean. -/

namespace Sys2Proof

/-- A command (this spec's stand-in for an instruction, R12). An operand is the 8-bit field `IMM8`, unsigned (R61). -/
inductive Instr where
  /-- `crc.nop` (R102). -/
  | nop
  /-- `crc.init` (R103). -/
  | init
  /-- `crc.fold b`: `b` is the message byte (R104). -/
  | fold (b : Byte)
  /-- `crc.final` (R105). -/
  | final
  /-- `crc.romrd i`: `i` is the table index (R84). -/
  | romrd (i : Byte)
  deriving DecidableEq, Repr

end Sys2Proof
end

