-- ==== Sys2Proof/WellFormed.lean ====
section
/-! DEFINITION. What is a command. A term of `Instr` needs no check: "every 8-bit value 0 to 255 is a legal operand of
FOLD and of ROMRD, so no operand range check exists" (30_encoding.md rule R61). The checks are on WORDS: the opcode map
of R62 read as match and mask. The decoder (Decode.lean) is written from R67 instead, and the two are stated to agree. -/

namespace Sys2Proof

/-- R61: no operand of any command has a range check, so each arm is well formed whatever its operand. -/
def Instr.wf : Instr → Bool
  | .nop => true
  | .init => true
  | .fold _ => true
  | .final => true
  | .romrd _ => true

/-- One row of the opcode map: a word is the row's command when `w & mask = pattern` (R62). -/
structure OpcodeRow where
  mnemonic : String
  pattern : CmdWord
  mask : CmdWord
  deriving DecidableEq, Repr

/-- The opcode map of R62, its rows in the table's order. -/
def opcodeMap : List OpcodeRow :=
  [ ⟨"crc.nop", 0x0000#16, 0xFFFF#16⟩,
    ⟨"crc.init", 0x0100#16, 0xFFFF#16⟩,
    ⟨"crc.fold", 0x0200#16, 0xFF00#16⟩,
    ⟨"crc.final", 0x0300#16, 0xFFFF#16⟩,
    ⟨"crc.romrd", 0x0400#16, 0xFF00#16⟩ ]

/-- The word matches the row under its mask (R62). -/
def OpcodeRow.accepts (r : OpcodeRow) (w : CmdWord) : Bool := w &&& r.mask == r.pattern

/-- The word is a command: some row of the opcode map matches it. Every other word is reserved (R62, R63). -/
def isCommandWord (w : CmdWord) : Bool := opcodeMap.any fun r => r.accepts w

/-- The row an instruction belongs to, its mnemonic as the table spells it. -/
def Instr.mnemonic : Instr → String
  | .nop => "crc.nop"
  | .init => "crc.init"
  | .fold _ => "crc.fold"
  | .final => "crc.final"
  | .romrd _ => "crc.romrd"

/-- How many of the 65,536 words have a property. -/
def countWords (p : CmdWord → Bool) : Nat := (List.range 65536).countP fun n => p (BitVec.ofNat 16 n)

end Sys2Proof
end

