-- ==== Sys2Proof/Decode.lean ====
section
/-! DEFINITION. The decoder of 30_encoding.md rule R67, total over the 65,536 words, and the encoder (R62, R65). The
model receives whole 16-bit words and never sees bus bytes (R68), so there is no byte order here. -/

namespace Sys2Proof

/-- `OP = cmd[15:8]` (R60, R61). -/
def opField (w : CmdWord) : Byte := w.extractLsb' 8 8

/-- `IMM8 = cmd[7:0]` (R60, R61). -/
def immField (w : CmdWord) : Byte := w.extractLsb' 0 8

/-- Why a word is reserved: the four classes (a) to (d) of R63. -/
inductive ReservedClass where
  /-- (a) `OP` in `0x05` to `0xFF`. -/
  | unusedOpcode
  /-- (b) NOP with a non-zero `IMM8`. -/
  | nopOperand
  /-- (c) INIT with a non-zero `IMM8`. -/
  | initOperand
  /-- (d) FINAL with a non-zero `IMM8`. -/
  | finalOperand
  deriving DecidableEq, Repr

/-- What a word decodes to: a command, or `Reserved(cmd)` with the class of R63 it falls in (R67). -/
inductive Decoded where
  | command (i : Instr)
  | reserved (c : ReservedClass) (w : CmdWord)
  deriving DecidableEq, Repr

/-- R67, in its order: each opcode with the `IMM8` it needs, and every other word reserved by name. -/
def decode (w : CmdWord) : Decoded :=
  if opField w = 0x00#8 then
    if immField w = 0x00#8 then .command .nop else .reserved .nopOperand w
  else if opField w = 0x01#8 then
    if immField w = 0x00#8 then .command .init else .reserved .initOperand w
  else if opField w = 0x02#8 then .command (.fold (immField w))
  else if opField w = 0x03#8 then
    if immField w = 0x00#8 then .command .final else .reserved .finalOperand w
  else if opField w = 0x04#8 then .command (.romrd (immField w))
  else .reserved .unusedOpcode w

/-- The word of a command: `0x0000`, `0x0100`, `0x0200 + b`, `0x0300`, `0x0400 + i` (R62, R65). -/
def encode : Instr → CmdWord
  | .nop => 0x0000#16
  | .init => 0x0100#16
  | .fold b => 0x0200#16 + b.setWidth 16
  | .final => 0x0300#16
  | .romrd i => 0x0400#16 + i.setWidth 16

/-- The command of a decoded word, none where the word is reserved. -/
def Decoded.instr? : Decoded → Option Instr
  | .command i => some i
  | .reserved _ _ => none

/-- The instruction the decoder reads from one command word given as a number, its bits numbered as the opcode table
numbers them (every row has 16 bits, R64). A number with a bit set above the word's 16 is no command word. -/
def decodeTableWord (nbits w : Nat) : Option Instr :=
  if w % 2 ^ nbits < 2 ^ 16 then (decode (BitVec.ofNat 16 (w % 2 ^ nbits))).instr? else none

end Sys2Proof
end

