-- ==== Sys2Proof/Config.lean ====
section
/-! DEFINITION. The parameters of 00_scope.md rule R6. The algorithm's are fixed (R2: no option selects another value).
`N_ENGINES` has no value a proof can see. `BUS_BINDING` is open and not modelled (decision D19, log entry 10). -/

namespace Sys2Proof

/-- `POLY`, the reflected generator (R2, R6). -/
def Config.poly : Word := 0xEDB88320#32

/-- `INIT`, the accumulator's start value (R2, R6). -/
def Config.initAcc : Word := 0xFFFFFFFF#32

/-- `ROUNDS`, the bit-reduction rounds of one table entry (R6, R10). -/
def Config.rounds : Nat := 8

/-- `DEPTH`, the number of table entries (R6). -/
def Config.depth : Nat := 256

/-- How many engine instances there are beyond the first. A parameter with no value (R6, decision D18; log entry 9). -/
opaque Config.enginesBeyondFirst : Nat

/-- `N_ENGINES`, at least 1 (R6, R138). -/
def Config.nEngines : Nat := Config.enginesBeyondFirst + 1

end Sys2Proof
end

