-- ==== Sys2Proof/Machine/Operands.lean ====
section
/-! DEFINITION. Operand forms and the engine's arithmetic (30_encoding.md rule R61, 41_fold_engine.md rules R100, R104,
R105). The block has no flags (R26), so there are no flag computations. -/

namespace Sys2Proof.Machine

/-- The index FOLD computes, `(ACC & 0xFF) ^ b`: 8 bits, so it always names an entry (R104, R45). -/
def foldIndex (acc : Word) (b : Byte) : Byte := (acc &&& 0xFF#32).setWidth 8 ^^^ b

/-- The accumulator after FOLD: `(ACC >> 8) ^ ROM[(ACC & 0xFF) ^ b]`, a logical shift (R100, R104). -/
def foldByte (acc : Word) (b : Byte) : Word := (acc >>> 8) ^^^ romRead (foldIndex acc b)

/-- Finalisation, the bitwise NOT at 32 bits (R6 `XOROUT`, R105). -/
def finalise (acc : Word) : Word := ~~~acc

end Sys2Proof.Machine
end

