-- ==== Sys2Proof/Machine/State.lean ====
section
/-! DEFINITION. The state of one engine instance (10_state.md rule R20), the inputs it runs on, and the reasons it can
stop. The table ROM is a constant that nothing writes (R23), so it is the function `romRead` of Machine/TableRom.lean
and no field (log entry 3). -/

namespace Sys2Proof.Machine

/-- The model's faults. -/
inductive Fault where
  /-- `IllegalCommand(cmd, pc)`, the only fault (60_exceptions.md rule R131): a reserved word `cmd` stood at `pc`.
  Recorded by `takeIllegalCommand`; answered by `portStep` in every later step that is no reset. Safe: the hardware
  ignores the word and goes on (`hardwareStep`), and no claim is made about such a run. -/
  | illegalCommand (cmd : CmdWord) (pc : Nat)
  deriving DecidableEq, Repr

/-- The model's refusals. -/
inductive Refusal where
  /-- An instruction without a meaning, raised by an arm of `exec`. No arm raises it: every command is modelled. Safe. -/
  | notModelled (mnemonic : String)
  deriving DecidableEq, Repr

/-- What the host drives on `rst` and `cmd_valid` in one step (R28). The word on `cmd` is the program's next one (R25). -/
structure PortDrive where
  /-- The level of `rst`. -/
  rst : Bool
  /-- The level of `cmd_valid`. -/
  cmdValid : Bool
  deriving DecidableEq, Repr

/-- One engine instance and the host's inputs to it. -/
structure State where
  /-- `ACC`, the accumulator (R21). -/
  acc : Word
  /-- `OUT`, the host-visible output register (R22). -/
  out : Word
  /-- `pc`, the index of the next command to perform; the model's bookkeeping (R25). -/
  pc : Nat
  /-- `fault`, none or the one record; the model's bookkeeping (R30). -/
  fault : Option Fault
  /-- `P`, the host's command stream (R25). An input: no command changes it (R20). -/
  program : List CmdWord
  /-- The host's drives of `rst` and `cmd_valid` in the coming steps, oldest first. An input (R28; log entry 1). When
  the list is empty the host presents a command in every step while it has one, and does not reset. -/
  port : List PortDrive
  deriving DecidableEq, Repr

/-- The state after reset (70_reset_and_hazards.md rule R150), before the host has given any input (log entry 1). -/
def State.reset : State where
  acc := 0xFFFFFFFF#32
  out := 0x00000000#32
  pc := 0
  fault := none
  program := []
  port := []

end Sys2Proof.Machine
end

