-- ==== Sys2Proof/Machine/Ops.lean ====
section
/-! DEFINITION. The named operations over the state: the register writes, the advance of `pc`, taking the one exception
of the block, reset, and the port's signals in a step. -/

namespace Sys2Proof.Machine

/-- `ACC <- v` (R9). -/
def setAcc (v : Word) (s : State) : State := { s with acc := v }

/-- `OUT <- v` (R9). -/
def setOut (v : Word) (s : State) : State := { s with out := v }

/-- `pc <- pc + 1` (R25). -/
def advancePc (s : State) : State := { s with pc := s.pc + 1 }

/-- Taking the block's only exception (R131): the whole word and the `pc` at which it stood are recorded, `pc` advances
by 1, and nothing else changes. There is no handler, no vector and no return (R134, R135). -/
def takeIllegalCommand (w : CmdWord) (s : State) : State :=
  advancePc { s with fault := some (.illegalCommand w s.pc) }

/-- The code of a fault: 1 for `IllegalCommand`, the only one (R131). -/
def Fault.code : Fault → Nat
  | .illegalCommand _ _ => 1

/-- The code of the fault record: 0 means no fault (R131). -/
def faultCode : Option Fault → Nat
  | none => 0
  | some f => f.code

/-- `rst = 1` in a step: every piece of state takes its value after reset (R150), and a new run of the same program
starts with `pc = 0` (R152). The host's inputs are not the block's state and stay (log entry 6). -/
def applyReset (s : State) : State :=
  { State.reset with program := s.program, port := s.port }

/-- The command port's input signals in one step (R28): `cmd` and `cmd_valid` together, `none` being `cmd_valid = 0`. -/
structure PortInput where
  rst : Bool
  cmd : Option CmdWord
  deriving DecidableEq, Repr

/-- The drive of `rst` and `cmd_valid` in this step: the oldest of the list; without one, the host presents a command
and does not reset (log entry 1). -/
def currentDrive (s : State) : PortDrive :=
  match s.port with
  | [] => ⟨false, true⟩
  | d :: _ => d

/-- The next command of the host's stream, `P[pc]`; none when `pc = L` (R25, R157). -/
def nextCommand (s : State) : Option CmdWord := s.program[s.pc]?

/-- The port's signals in this step. With no command left there is nothing to present (log entry 5). -/
def currentPins (s : State) : PortInput :=
  { rst := (currentDrive s).rst
    cmd := if (currentDrive s).cmdValid then nextCommand s else none }

/-- The host's list of drives after this step. -/
def consumeDrive (s : State) : State := { s with port := s.port.tail }

end Sys2Proof.Machine
end

