-- ==== Sys2Proof/Machine/EngineCommands.lean ====
section
/-! DEFINITION. The meanings of NOP, INIT, FOLD and FINAL (41_fold_engine.md rules R102 to R105). None can fail
(60_exceptions.md rule R130). -/

namespace Sys2Proof.Machine

/-- `crc.nop`: `pc <- pc + 1` and nothing else (R102). -/
def execNop (s : State) : Host.Outcome State Fault Refusal :=
  .next (advancePc s)

/-- `crc.init`: `ACC <- 0xFFFFFFFF`; `OUT` keeps the previous result (R103). -/
def execInit (s : State) : Host.Outcome State Fault Refusal :=
  .next (advancePc (setAcc Config.initAcc s))

/-- `crc.fold b`: `ACC <- (ACC >> 8) ^ ROMRead((ACC & 0xFF) ^ b)` (R104). -/
def execFold (b : Byte) (s : State) : Host.Outcome State Fault Refusal :=
  .next (advancePc (setAcc (foldByte s.acc b) s))

/-- `crc.final`: `OUT <- ~ACC`; `ACC` is kept (R105, decision D6). -/
def execFinal (s : State) : Host.Outcome State Fault Refusal :=
  .next (advancePc (setOut (finalise s.acc) s))

end Sys2Proof.Machine
end

