-- ==== Sys2Proof/Machine/RomCommands.lean ====
section
/-! DEFINITION. The meaning of ROMRD (40_table_rom.md rule R84). -/

namespace Sys2Proof.Machine

/-- `crc.romrd i`: `OUT <- ROMRead(i)`, `pc <- pc + 1`; `ACC` is neither read nor written (R84). -/
def execRomrd (i : Byte) (s : State) : Host.Outcome State Fault Refusal :=
  .next (advancePc (setOut (romRead i) s))

end Sys2Proof.Machine
end

