-- ==== Sys2Proof/Machine/Dispatch.lean ====
section
/-! DEFINITION. Performing one decoded command: one arm per constructor of `Instr`. -/

namespace Sys2Proof.Machine

def exec (i : Instr) (s : State) : Host.Outcome State Fault Refusal :=
  match i with
  | .nop => Sys2Proof.Machine.execNop s
  | .init => Sys2Proof.Machine.execInit s
  | .fold b => Sys2Proof.Machine.execFold b s
  | .final => Sys2Proof.Machine.execFinal s
  | .romrd k => Sys2Proof.Machine.execRomrd k s

end Sys2Proof.Machine
end

