-- ==== Sys2Proof/Machine/PortStep.lean ====
section
/-! DEFINITION. One step of the command port (10_state.md rule R28, 41_fold_engine.md rule R101). -/

namespace Sys2Proof.Machine

/-- A presented word: decoded by R67, then its rule is performed; a reserved word takes `IllegalCommand` (R101, R131). -/
def performWord (w : CmdWord) (s : State) : Host.Outcome State Fault Refusal :=
  match decode w with
  | .command i => exec i s
  | .reserved _ v => .next (takeIllegalCommand v s)

/-- One step with the given signals. Reset wins over everything else (R152). With a fault recorded the model takes no
further step (R131, R30). A step without a command performs nothing (R28). -/
def portStep (p : PortInput) (s : State) : Host.Outcome State Fault Refusal :=
  if p.rst then .next (applyReset s)
  else
    match s.fault with
    | some f => .fault f
    | none =>
      match p.cmd with
      | none => .next s
      | some w => performWord w s

/-- The host's drive for a step that must present the next command: no reset, `cmd_valid = 1`. The list of drives is
left alone when its first drive does that already. -/
def withPresentingDrive (s : State) : State :=
  if currentDrive s = ⟨false, true⟩ then s else { s with port := ⟨false, true⟩ :: s.port }

/-- The program with the word `w` at index `k`: the words before it kept (NOPs where there are none), those after it kept. -/
def placeWord (k : Nat) (w : CmdWord) (P : List CmdWord) : List CmdWord :=
  P.take k ++ List.replicate (k - P.length) 0x0000#16 ++ w :: P.drop (k + 1)

end Sys2Proof.Machine
end

