-- ==== Sys2Proof/Machine/Step.lean ====
section
/-! DEFINITION. The model's step, and placing an instruction where the next step takes its command from. -/

namespace Sys2Proof.Machine

/-- One step of the engine: the host's drive of this step is consumed and its signals act (R28, R101, R157). -/
def step (s : State) : Host.Outcome State Fault Refusal :=
  portStep (currentPins s) (consumeDrive s)

/-- `s` with the 16-bit command `w` as the host's next command, presented in the very next step: `P[pc] = w`, no fault
recorded (a recorded one stops the model), and a drive that presents it (log entry 15). -/
def State.withFetchWord (s : State) (nbits w : Nat) : State :=
  withPresentingDrive
    { s with
      fault := none
      program := placeWord s.pc (BitVec.ofNat 16 (w % 2 ^ nbits)) s.program }

end Sys2Proof.Machine
end

