-- ==== Sys2Proof/Machine/Assembler.lean ====
section
/-! DEFINITION. The assembler: the lines of 30_encoding.md rule R65 and the pseudo-instructions of R66, as abstract
lines, and the command words each stands for. Machine/AssemblerText.lean reads them from text. -/

namespace Sys2Proof.Machine

/-- `<byte>` or `<index>`: a number, or a character literal given by its code point (R65). -/
inductive AsmOperand where
  | number (n : Nat)
  | char (codePoint : Nat)
  deriving DecidableEq, Repr

/-- One line of assembler (R65, R66). A string is the list of its code points. -/
inductive AsmLine where
  | nop
  | init
  | fold (x : AsmOperand)
  | final
  | romrd (x : AsmOperand)
  /-- `.cmd <word16>`: the word itself, reserved ones included (R65). -/
  | cmd (w : Nat)
  /-- `crc.bytes b0, ..., bn` (R66). -/
  | bytes (xs : List AsmOperand)
  /-- `crc.text "s"` (R66). -/
  | text (s : List Nat)
  /-- `crc.msg "s"` (R66). -/
  | msg (s : List Nat)
  /-- `crc.msgbytes b0, ..., bn` (R66). -/
  | msgbytes (xs : List AsmOperand)
  deriving DecidableEq, Repr

/-- Why the assembler refuses a line; it then emits nothing for it (R65, R66). -/
inductive AsmError where
  /-- A number outside 0 to 255 (R65). -/
  | numberOutOfRange (n : Nat)
  /-- A character literal outside U+0020 to U+007E (R65). -/
  | charOutOfRange (codePoint : Nat)
  /-- A `.cmd` number that is no 16-bit word (log entry 12). -/
  | wordOutOfRange (n : Nat)
  /-- A string that is not valid Unicode text (R66). -/
  | notUnicode (codePoint : Nat)
  /-- `crc.bytes` or `crc.msgbytes` without a byte (log entry 13). -/
  | noBytes
  /-- Text that is no line of R65 or R66 (Machine/AssemblerText.lean). -/
  | syntaxError
  deriving DecidableEq, Repr

/-- Apply `f` to every element in order, stopping at the first refusal (DESIGN CHOICE: log entry 14). -/
def traverseAsm {α β : Type} (f : α → Except AsmError β) : List α → Except AsmError (List β)
  | [] => .ok []
  | x :: xs =>
    match f x with
    | .error e => .error e
    | .ok y =>
      match traverseAsm f xs with
      | .error e => .error e
      | .ok ys => .ok (y :: ys)

/-- The byte an operand stands for; a character literal stands for "its single UTF-8 byte, which equals its code
point" (R65; log entry 11). -/
def operandByte : AsmOperand → Except AsmError Byte
  | .number n => if n ≤ 255 then .ok (BitVec.ofNat 8 n) else .error (.numberOutOfRange n)
  | .char c => if 0x20 ≤ c ∧ c ≤ 0x7E then .ok (BitVec.ofNat 8 c) else .error (.charOutOfRange c)

/-- A Unicode scalar value: a code point that is no surrogate. -/
def isScalar (c : Nat) : Bool := c < 0xD800 || (0xE000 ≤ c && c < 0x110000)

/-- The UTF-8 bytes of one code point: one up to U+007F, two to four above it (R66; the encoding form itself is from
general knowledge, G2 and G3; log entry 11). -/
def utf8Char (c : Nat) : Except AsmError (List Byte) :=
  if isScalar c then
    if c < 0x80 then .ok [BitVec.ofNat 8 c]
    else if c < 0x800 then
      .ok [BitVec.ofNat 8 (0xC0 + c / 64), BitVec.ofNat 8 (0x80 + c % 64)]
    else if c < 0x10000 then
      .ok [BitVec.ofNat 8 (0xE0 + c / 4096), BitVec.ofNat 8 (0x80 + c / 64 % 64), BitVec.ofNat 8 (0x80 + c % 64)]
    else
      .ok [BitVec.ofNat 8 (0xF0 + c / 262144), BitVec.ofNat 8 (0x80 + c / 4096 % 64),
        BitVec.ofNat 8 (0x80 + c / 64 % 64), BitVec.ofNat 8 (0x80 + c % 64)]
  else .error (.notUnicode c)

/-- The UTF-8 bytes of a string, in order (R66). -/
def utf8Bytes (s : List Nat) : Except AsmError (List Byte) :=
  match traverseAsm utf8Char s with
  | .error e => .error e
  | .ok bs => .ok bs.flatten

/-- The bytes of the operand list of `crc.bytes` or `crc.msgbytes`, at least one. -/
def listedBytes (xs : List AsmOperand) : Except AsmError (List Byte) :=
  if xs = [] then .error .noBytes else traverseAsm operandByte xs

/-- One `crc.fold` per byte, in order (R66). -/
def foldWords (bs : List Byte) : List CmdWord := bs.map fun b => encode (.fold b)

/-- `crc.init`, the folds, `crc.final` (R66). -/
def messageWords (bs : List Byte) : List CmdWord :=
  encode .init :: (foldWords bs ++ [encode .final])

/-- The words that a line's bytes give, or the refusal of the bytes. -/
def emitWith {α : Type} (f : α → List CmdWord) : Except AsmError α → Except AsmError (List CmdWord)
  | .error e => .error e
  | .ok x => .ok (f x)

/-- The words a line emits, or why the assembler refuses it and emits nothing (R65, R66). -/
def assembleLine : AsmLine → Except AsmError (List CmdWord)
  | .nop => .ok [encode .nop]
  | .init => .ok [encode .init]
  | .fold x => emitWith (fun b => [encode (.fold b)]) (operandByte x)
  | .final => .ok [encode .final]
  | .romrd x => emitWith (fun i => [encode (.romrd i)]) (operandByte x)
  | .cmd w => if w < 2 ^ 16 then .ok [BitVec.ofNat 16 w] else .error (.wordOutOfRange w)
  | .bytes xs => emitWith foldWords (listedBytes xs)
  | .text s => emitWith foldWords (utf8Bytes s)
  | .msg s => emitWith messageWords (utf8Bytes s)
  | .msgbytes xs => emitWith messageWords (listedBytes xs)

/-- The words of a whole text of lines, in order. DESIGN CHOICE (log entry 14): a refused line refuses the text, with the
first refused line's reason. -/
def assemble (lines : List AsmLine) : Except AsmError (List CmdWord) :=
  emitWith List.flatten (traverseAsm assembleLine lines)

end Sys2Proof.Machine
end

