-- ==== Sys2Proof/Machine/AssemblerText.lean ====
section
/-! DEFINITION. Reading the assembler's lines from text (30_encoding.md rules R65, R66): "one command per line, mnemonics
in lower case, `#` starting a comment". What these rules leave open of the text is the model's choice: blanks and quotes
(log entry 16), the spelling of `<word16>` (log entry 17), which refusal a text with several reports (log entry 14). -/

namespace Sys2Proof.Machine

/-- The apostrophe, which encloses a character literal. -/
def apostrophe : Char := Char.ofNat 0x27

/-- The quotation mark, which encloses a string. -/
def quotationMark : Char := Char.ofNat 0x22

/-- A space or a tab, and the carriage return some texts end their lines with. -/
def isBlank (c : Char) : Bool := c == ' ' || c == Char.ofNat 9 || c == Char.ofNat 13

/-- The text after its leading blanks. -/
def dropBlanks : List Char → List Char
  | [] => []
  | c :: cs => if isBlank c then dropBlanks cs else c :: cs

/-- Nothing left on the line but blanks and a comment. -/
def atLineEnd (cs : List Char) : Bool :=
  match dropBlanks cs with
  | [] => true
  | c :: _ => c == '#'

/-- The leading word of the line (up to a blank or a comment) and the rest. -/
def takeToken : List Char → List Char × List Char
  | [] => ([], [])
  | c :: cs =>
    if isBlank c || c == '#' then ([], c :: cs)
    else (c :: (takeToken cs).1, (takeToken cs).2)

/-- The value of a digit, below 10 for a decimal one; upper and lower case are the same value (R7). -/
def digitValue (c : Char) : Option Nat :=
  if '0' ≤ c ∧ c ≤ '9' then some (c.toNat - 48)
  else if 'a' ≤ c ∧ c ≤ 'f' then some (c.toNat - 87)
  else if 'A' ≤ c ∧ c ≤ 'F' then some (c.toNat - 55)
  else none

/-- Read digits in a base: the value so far, and whether a digit was read. -/
def readDigits (base : Nat) : List Char → Nat → Bool → Option (Nat × List Char)
  | [], n, seen => if seen then some (n, []) else none
  | c :: cs, n, seen =>
    match digitValue c with
    | some d =>
      if d < base then readDigits base cs (n * base + d) true
      else if seen then some (n, c :: cs) else none
    | none => if seen then some (n, c :: cs) else none

/-- A decimal number, or a hexadecimal one after `0x`: the two number forms of `<byte>` and `<index>` (R65). -/
def readNumber : List Char → Option (Nat × List Char)
  | '0' :: 'x' :: cs => readDigits 16 cs 0 false
  | cs => readDigits 10 cs 0 false

/-- An operand: a character literal or a number, after blanks (R65). -/
def readOperand (cs : List Char) : Option (AsmOperand × List Char) :=
  match dropBlanks cs with
  | q :: c :: e :: rest =>
    if q == apostrophe then
      if e == apostrophe then some (.char c.toNat, rest) else none
    else (readNumber (q :: c :: e :: rest)).map fun r => (.number r.1, r.2)
  | short => (readNumber short).map fun r => (.number r.1, r.2)

/-- Operands separated by commas, at most `fuel` of them (R66). -/
def readOperands : Nat → List Char → Option (List AsmOperand × List Char)
  | 0, _ => none
  | fuel + 1, cs =>
    match readOperand cs with
    | none => none
    | some (x, rest) =>
      match dropBlanks rest with
      | ',' :: more => (readOperands fuel more).map fun r => (x :: r.1, r.2)
      | other => some ([x], other)

/-- A string's code points up to its closing quotation mark. -/
def readStringBody : List Char → Option (List Nat × List Char)
  | [] => none
  | c :: cs =>
    if c == quotationMark then some ([], cs)
    else (readStringBody cs).map fun r => (c.toNat :: r.1, r.2)

/-- A string in quotation marks, after blanks (R66). -/
def readString (cs : List Char) : Option (List Nat × List Char) :=
  match dropBlanks cs with
  | [] => none
  | c :: rest => if c == quotationMark then readStringBody rest else none

/-- The line that was read, when nothing but a comment follows it. -/
def finishLine {α : Type} (make : α → AsmLine) (r : Option (α × List Char)) : Except AsmError (Option AsmLine) :=
  match r with
  | none => .error .syntaxError
  | some (x, rest) => if atLineEnd rest then .ok (some (make x)) else .error .syntaxError

/-- The line of a mnemonic and the text after it (the tables of R65 and R66). DESIGN CHOICE (log entry 17): `<word16>` of
`.cmd`, whose spelling R65 does not give, is a number in the forms of `<byte>`, decimal or after `0x`; a character
literal is refused there. -/
def readMnemonic (m rest : List Char) : Except AsmError (Option AsmLine) :=
  if m = ['c', 'r', 'c', '.', 'n', 'o', 'p'] then finishLine (fun _ => .nop) (some ((), rest))
  else if m = ['c', 'r', 'c', '.', 'i', 'n', 'i', 't'] then finishLine (fun _ => .init) (some ((), rest))
  else if m = ['c', 'r', 'c', '.', 'f', 'o', 'l', 'd'] then finishLine .fold (readOperand rest)
  else if m = ['c', 'r', 'c', '.', 'f', 'i', 'n', 'a', 'l'] then finishLine (fun _ => .final) (some ((), rest))
  else if m = ['c', 'r', 'c', '.', 'r', 'o', 'm', 'r', 'd'] then finishLine .romrd (readOperand rest)
  else if m = ['.', 'c', 'm', 'd'] then finishLine .cmd (readNumber (dropBlanks rest))
  else if m = ['c', 'r', 'c', '.', 'b', 'y', 't', 'e', 's'] then
    finishLine .bytes (readOperands rest.length rest)
  else if m = ['c', 'r', 'c', '.', 't', 'e', 'x', 't'] then finishLine .text (readString rest)
  else if m = ['c', 'r', 'c', '.', 'm', 's', 'g'] then finishLine .msg (readString rest)
  else if m = ['c', 'r', 'c', '.', 'm', 's', 'g', 'b', 'y', 't', 'e', 's'] then
    finishLine .msgbytes (readOperands rest.length rest)
  else .error .syntaxError

/-- One line of text: none for a blank or comment line, else the line, else the refusal. -/
def readLine (cs : List Char) : Except AsmError (Option AsmLine) :=
  if atLineEnd cs then .ok none
  else readMnemonic (takeToken (dropBlanks cs)).1 (takeToken (dropBlanks cs)).2

/-- The lines of a text: its characters between line feeds. -/
def splitLines : List Char → List (List Char)
  | [] => [[]]
  | c :: cs =>
    if c == Char.ofNat 10 then [] :: splitLines cs
    else
      match splitLines cs with
      | [] => [[c]]
      | l :: ls => (c :: l) :: ls

/-- The words of one line of text, or why it is refused: read, then assembled; a blank or comment line emits nothing. -/
def assembleTextLine (cs : List Char) : Except AsmError (List CmdWord) :=
  match readLine cs with
  | .error e => .error e
  | .ok none => .ok []
  | .ok (some l) => assembleLine l

/-- The words of an assembler text, or why it is refused. DESIGN CHOICE (log entry 14): the lines are read and assembled
one by one, and the refusal reported is that of the first refused line of the text, of whatever kind it is. -/
def assembleText (cs : List Char) : Except AsmError (List CmdWord) :=
  emitWith List.flatten (traverseAsm assembleTextLine (splitLines cs))

end Sys2Proof.Machine
end

