-- ==== Sys2Proof/Machine/Block.lean ====
section
/-! DEFINITION. The whole block: `N_ENGINES` engine instances that share the one table ROM and nothing else
(10_state.md rule R31, 60_exceptions.md rule R138). The ROM is the constant `romRead`, so it is shared by construction. -/

namespace Sys2Proof.Machine

/-- The engine instances of the block; a position in the list is no identifier a command can see (R138). -/
structure Block where
  engines : List State
  deriving DecidableEq, Repr

/-- The block after reset: every instance in the reset state (R138, R150). -/
def Block.reset : Block := ⟨List.replicate Config.nEngines State.reset⟩

/-- Instance `k` makes its step, on its own port. An instance that cannot step keeps its state: a faulted one takes no
further step (R131), and the others go on. -/
def blockStep (k : Nat) (b : Block) : Block :=
  match b.engines[k]? with
  | none => b
  | some s =>
    match step s with
    | .next t => ⟨b.engines.set k t⟩
    | .fault _ => b
    | .refused _ => b

/-- A sequence of steps, each by the instance it names. -/
def blockRun : List Nat → Block → Block
  | [], b => b
  | k :: ks, b => blockRun ks (blockStep k b)

/-- A reset of the block, which puts every instance into the state after reset together (R138, R150; log entry 8). -/
def blockReset (b : Block) : Block := ⟨b.engines.map applyReset⟩

end Sys2Proof.Machine
end

