-- ==== Sys2Proof/Machine/Hardware.lean ====
section
/-! DEFINITION. The hardware itself, which has no `pc` and no fault record (10_state.md rule R20): the two registers
under the port's signals, for ever. It goes on after a reserved word, where the model stops (60_exceptions.md rules
R131, R134). -/

namespace Sys2Proof.Machine

/-- The hardware's registers of one engine instance (R20). -/
structure Registers where
  acc : Word
  out : Word
  deriving DecidableEq, Repr

/-- The hardware's part of a model state. -/
def registersOf (s : State) : Registers := ⟨s.acc, s.out⟩

/-- What each command does to the registers (R102 to R105, R84). -/
def hardwareCommand : Instr → Registers → Registers
  | .nop, r => r
  | .init, r => { r with acc := 0xFFFFFFFF#32 }
  | .fold b, r => { r with acc := foldByte r.acc b }
  | .final, r => { r with out := finalise r.acc }
  | .romrd i, r => { r with out := romRead i }

/-- A word presented to the hardware: "a command that changes no state" when it is reserved (R131 (hardware), R63). -/
def hardwareWord (w : CmdWord) (r : Registers) : Registers :=
  match decode w with
  | .command i => hardwareCommand i r
  | .reserved _ _ => r

/-- One step of the hardware: reset wins (R152), idle changes nothing (R28, R139), else the word is performed. -/
def hardwareStep (p : PortInput) (r : Registers) : Registers :=
  if p.rst then ⟨State.reset.acc, State.reset.out⟩
  else
    match p.cmd with
    | none => r
    | some w => hardwareWord w r

/-- The hardware over a sequence of steps. It never stops (R134). -/
def hardwareRun : List PortInput → Registers → Registers
  | [], r => r
  | p :: ps, r => hardwareRun ps (hardwareStep p r)

/-- A step that matters to the hardware: a reset, or a word that is a command. -/
def effectiveStep (p : PortInput) : Bool :=
  p.rst || (match p.cmd with
    | none => false
    | some w => isCommandWord w)

end Sys2Proof.Machine
end

