-- ==== Sys2Proof/Machine/HostInterface.lean ====
section
/-! DEFINITION. What the host gets back (10_state.md rules R22, R28, 60_exceptions.md rule R141) and how it prints the
result (20_memory.md rule R52). -/

namespace Sys2Proof.Machine

/-- The signal `out` in a step: "the current value of `OUT`, continuously" (R28); while `rst = 1` it "shows the value
after reset" (R150; log entry 7). -/
def outPin (p : PortInput) (s : State) : Word := if p.rst then State.reset.out else s.out

/-- The host reads `OUT`: it gets the pin's value, and the state does not change (R22, R141). -/
def hostRead (s : State) : Word × State := (outPin (currentPins s) s, s)

/-- The lowercase hexadecimal digits (R52). -/
def hexDigits : List Char :=
  ['0', '1', '2', '3', '4', '5', '6', '7', '8', '9', 'a', 'b', 'c', 'd', 'e', 'f']

/-- Digit `k` of a value, digit 0 the least significant (R52). -/
def hexDigitAt (w : Word) (k : Nat) : Char := hexDigits.getD (w.toNat / 16 ^ k % 16) '0'

/-- The canonical text of a result: eight lowercase hex digits, the most significant first, leading zeros kept (R52). -/
def hexText (w : Word) : List Char := [7, 6, 5, 4, 3, 2, 1, 0].map (hexDigitAt w)

/-- The same text with its `0x` prefix (R52 allows both). -/
def hexTextPrefixed (w : Word) : List Char := '0' :: 'x' :: hexText w

end Sys2Proof.Machine
end

