-- ==== Sys2Proof/Machine/Message.lean ====
section
/-! DEFINITION. The reference functions of whole messages: `crc32` (00_scope.md rule R11), the bit-by-bit form of a fold
(41_fold_engine.md rule R107), the same one message bit at a time (20_memory.md rule R43), and performing a list of
commands in order (R48, R101). -/

namespace Sys2Proof.Machine

/-- The accumulator after folding the bytes `m` in order, from `acc` (the loop of R11). -/
def foldBytes : List Byte → Word → Word
  | [], acc => acc
  | b :: m, acc => foldBytes m (foldByte acc b)

/-- `crc32(m)`, `m` possibly empty (R11). -/
def crc32 (m : List Byte) : Word := ~~~(foldBytes m 0xFFFFFFFF#32)

/-- `fold_bitwise(ACC, b)`: the byte XORed into the low bits, then eight rounds of the reduction (R107). -/
def foldBitwise (acc : Word) (b : Byte) : Word := reduceRounds 8 (acc ^^^ b.setWidth 32)

/-- The naive, table-free computation over a message: `fold_bitwise` per byte between the same INIT and FINAL (R107). -/
def crc32Bitwise (m : List Byte) : Word := ~~~(m.foldl foldBitwise 0xFFFFFFFF#32)

/-- One message bit into the division: it enters at `ACC[0]` (R43). -/
def divideBit (acc : Word) (bit : Bool) : Word :=
  if acc.getLsbD 0 ^^ bit then (acc >>> 1) ^^^ 0xEDB88320#32 else acc >>> 1

/-- One message byte, its bits entering one by one, bit 0 first (R43). -/
def foldBitSerial (acc : Word) (b : Byte) : Word :=
  [0, 1, 2, 3, 4, 5, 6, 7].foldl (fun a k => divideBit a (b.getLsbD k)) acc

/-- Performing commands one after the other, in order, each on the state the one before it left (R48). -/
def performAll : List Instr → State → Host.Outcome State Fault Refusal
  | [], s => .next s
  | i :: is, s =>
    match exec i s with
    | .next t => performAll is t
    | .fault f => .fault f
    | .refused r => .refused r

/-- The bytes that the FOLDs of a command list fold, in order (R42). -/
def foldedBytes : List Instr → List Byte
  | [] => []
  | .fold b :: is => b :: foldedBytes is
  | .nop :: is => foldedBytes is
  | .init :: is => foldedBytes is
  | .final :: is => foldedBytes is
  | .romrd _ :: is => foldedBytes is

/-- A command that may stand inside a message before its FINAL without starting or ending one (R106). -/
def insideMessage : Instr → Bool
  | .nop => true
  | .fold _ => true
  | .romrd _ => true
  | .init => false
  | .final => false

end Sys2Proof.Machine
end

