-- ==== Sys2Proof/Safety.lean ====
section
/-! DEFINITION. What counts as a run's start, its normal end, and its stop (70_reset_and_hazards.md rules R157, R158),
and the invariant of the model's bookkeeping (10_state.md rules R25, R30). -/

namespace Sys2Proof.Machine

/-- A start state of a run: any `ACC` and `OUT`, `pc = 0`, no fault (R158). The host presents a command in every step. -/
def StartState (s : State) : Prop := s.pc = 0 ∧ s.fault = none ∧ s.port = []

/-- The normal end of a run: `pc = L` with no fault recorded (R157). -/
def Finished (s : State) : Prop := s.pc = s.program.length ∧ s.fault = none

/-- A fault is recorded: the run has no normal end, and no claim about it is a claim about the hardware (R131, R157). -/
def Faulted (s : State) : Prop := s.fault ≠ none

/-- The record, where there is one, names the reserved word that stands in the program just before `pc` (R30, R131). -/
def FaultRecordSound (s : State) : Prop :=
  match s.fault with
  | none => True
  | some (.illegalCommand w k) => s.pc = k + 1 ∧ s.program[k]? = some w ∧ isCommandWord w = false

/-- The bookkeeping invariant: `pc` is an index in 0..L (R25), and a recorded fault is sound (R30, R131). -/
def RunInv (s : State) : Prop := s.pc ≤ s.program.length ∧ FaultRecordSound s

end Sys2Proof.Machine
end

