-- ==== Sys2Proof/Certificates/Slice0/Obligations.lean ====
section
/-! DEFINITION. The statements for the provers, in the order of the spec's files. Each docstring says which rules it
formalises. -/

open Sys2Proof Sys2Proof.Machine

/-! ### The table ROM (40_table_rom.md) -/

/-- R10, R80: an entry is eight rounds of the reduction from its index, each round a logical shift with `POLY` XORed in
exactly when the low bit is 1; with R80's worked rounds of index 1. -/
def Obligations.TableEntryIsEightReductionRounds : Prop :=
  (∀ rem : Word, rem.toNat % 2 = 1 → reduceRound rem = (rem >>> 1) ^^^ 0xEDB88320#32) ∧
  (∀ rem : Word, rem.toNat % 2 = 0 → reduceRound rem = rem >>> 1) ∧
  (∀ i : Byte, romRead i = reduceRound^[8] (BitVec.ofNat 32 i.toNat)) ∧
  (List.range 9).map (fun n => reduceRound^[n] 0x00000001#32) =
    [0x00000001#32, 0xEDB88320#32, 0x76DC4190#32, 0x3B6E20C8#32, 0x1DB71064#32, 0x0EDB8832#32,
      0x076DC419#32, 0xEE0E612C#32, 0x77073096#32]

/-- R81: the table is linear, it is the XOR tree of its index's bits over the eight basis constants, and bit `j` of an
entry is the XOR of the index bits of the per-bit tree. -/
def Obligations.TableIsLinearAndXorTree : Prop :=
  (∀ a c : Byte, romRead (a ^^^ c) = romRead a ^^^ romRead c) ∧
  romRead 0#8 = 0#32 ∧
  (∀ k : Fin 8, romBasis[k.val]? = some (romRead (1#8 <<< k.val))) ∧
  (∀ i : Byte, romRead i = romXorTree i) ∧
  (∀ (i : Byte) (j : Fin 32), (romRead i).getLsbD j.val = romTreeBit i j.val)

/-- R83: entries are pairwise distinct, their top bytes are a permutation of 0 to 255, so the index can be recovered from
the top byte, and a fold is invertible for a fixed input byte. -/
def Obligations.TableTopBytesArePermutation : Prop :=
  (∀ i j : Byte, romRead i = romRead j → i = j) ∧
  (∀ i j : Byte, (romRead i).extractLsb' 24 8 = (romRead j).extractLsb' 24 8 → i = j) ∧
  (∀ t : Byte, ∃ i : Byte, (romRead i).extractLsb' 24 8 = t) ∧
  (∃ recover : Byte → Byte, ∀ i : Byte, recover ((romRead i).extractLsb' 24 8) = i) ∧
  (∀ (b : Byte) (x y : Word), foldByte x b = foldByte y b → x = y)

/-- R86 and R82: the listing is the whole table, with the distinguished entries. -/
def Obligations.TableListingIsTheTable : Prop :=
  romListing.length = 256 ∧ (∀ i : Byte, romListing[i.toNat]? = some (romRead i)) ∧
  romRead 0x00#8 = 0x00000000#32 ∧ romRead 0x80#8 = 0xEDB88320#32 ∧
  romRead 0x01#8 = 0x77073096#32 ∧ romRead 0xFF#8 = 0x2D02EF8D#32

/-- R84: ROMRD, whole: its words, its effect and nothing else, that it repeats, its corner cases and its example. -/
def Obligations.RomrdWritesTableEntryToOut : Prop :=
  (∀ (i : Byte) (s : State), exec (.romrd i) s = .next { s with out := reduce8 i, pc := s.pc + 1 }) ∧
  (∀ w : CmdWord, w &&& 0xFF00#16 = 0x0400#16 → decode w = .command (.romrd (w.setWidth 8))) ∧
  (∀ i : Byte, encode (.romrd i) = 0x0400#16 + i.setWidth 16) ∧
  (∀ i : Byte, reduce8 i = 0#32 ↔ i = 0#8) ∧ reduce8 0xFF#8 = 0x2D02EF8D#32 ∧
  (∀ (i : Byte) (s : State), performAll [.romrd i, .romrd i] s =
    .next { s with out := reduce8 i, pc := s.pc + 2 }) ∧
  (∀ s : State, performWord 0x0480#16 s = .next { s with out := 0xEDB88320#32, pc := s.pc + 1 })

/-! ### The commands of the folding engine (41_fold_engine.md) -/

/-- R102: NOP, whole: its word, that it advances `pc` and changes nothing else; a word `0x0001` to `0x00FF` is not NOP
but reserved. -/
def Obligations.NopOnlyAdvancesPc : Prop :=
  (∀ s : State, exec .nop s = .next { s with pc := s.pc + 1 }) ∧
  (∀ w : CmdWord, decode w = .command .nop ↔ w &&& 0xFFFF#16 = 0x0000#16) ∧
  (∀ w : CmdWord, 0x0001 ≤ w.toNat → w.toNat ≤ 0x00FF → ∃ c, decode w = .reserved c w)

/-- R103: INIT, whole: its word, its effect and nothing else, INIT twice is INIT once, INIT after reset changes nothing. -/
def Obligations.InitSetsAccumulator : Prop :=
  (∀ s : State, exec .init s = .next { s with acc := 0xFFFFFFFF#32, pc := s.pc + 1 }) ∧
  (∀ w : CmdWord, decode w = .command .init ↔ w &&& 0xFFFF#16 = 0x0100#16) ∧
  (∀ s : State, performAll [.init, .init] s = .next { s with acc := 0xFFFFFFFF#32, pc := s.pc + 2 }) ∧
  exec .init State.reset = .next { State.reset with pc := 1 }

/-- R104: FOLD, whole: its effect in the table form and in the XOR-tree form and nothing else, its words, the corner
cases (a) to (c) and its example. -/
def Obligations.FoldWritesShiftedAccXorTableEntry : Prop :=
  (∀ (b : Byte) (s : State), exec (.fold b) s =
    .next { s with acc := (s.acc >>> 8) ^^^ romRead ((s.acc &&& 0xFF#32).setWidth 8 ^^^ b), pc := s.pc + 1 }) ∧
  (∀ (b : Byte) (s : State), exec (.fold b) s =
    .next { s with acc := (0x00#8 ++ s.acc.extractLsb' 8 24) ^^^ romXorTree (s.acc.extractLsb' 0 8 ^^^ b),
                   pc := s.pc + 1 }) ∧
  (∀ w : CmdWord, w &&& 0xFF00#16 = 0x0200#16 → decode w = .command (.fold (w.setWidth 8))) ∧
  (∀ b : Byte, encode (.fold b) = 0x0200#16 + b.setWidth 16) ∧
  (∀ s : State, exec (.fold (s.acc.setWidth 8)) s = .next { s with acc := s.acc >>> 8, pc := s.pc + 1 }) ∧
  (∀ s : State, s.acc = 0#32 → exec (.fold 0x00#8) s = .next { s with pc := s.pc + 1 }) ∧
  (∀ (b : Byte) (s : State), ∃ t, exec (.fold b) s = .next t ∧
    t.acc.extractLsb' 24 8 = (romRead ((s.acc &&& 0xFF#32).setWidth 8 ^^^ b)).extractLsb' 24 8) ∧
  (∀ s : State, s.acc = 0xFFFFFFFF#32 →
    performWord 0x0261#16 s = .next { s with acc := 0x174841BC#32, pc := s.pc + 1 })

/-- R105: FINAL, whole: its word, its effect and nothing else, the empty message after INIT or reset, FINAL twice, and
its example. -/
def Obligations.FinalWritesComplementToOut : Prop :=
  (∀ s : State, exec .final s = .next { s with out := s.acc ^^^ 0xFFFFFFFF#32, pc := s.pc + 1 }) ∧
  (∀ w : CmdWord, decode w = .command .final ↔ w &&& 0xFFFF#16 = 0x0300#16) ∧
  (∀ s : State, performAll [.init, .final] s =
    .next { s with acc := 0xFFFFFFFF#32, out := 0x00000000#32, pc := s.pc + 2 }) ∧
  exec .final State.reset = .next { State.reset with out := 0x00000000#32, pc := 1 } ∧
  (∀ s : State, performAll [.final, .final] s = .next { s with out := s.acc ^^^ 0xFFFFFFFF#32, pc := s.pc + 2 }) ∧
  (∀ s : State, s.acc = 0x617CB792#32 → exec .final s = .next { s with out := 0x9E83486D#32, pc := s.pc + 1 })

/-- R130: no defined command can fail: every command, for every operand and every state, answers the next state that
its effect on the registers gives (`nop`, `init`, `fold`, `final` and `romrd` alike). -/
def Obligations.EveryCommandCompletes : Prop :=
  ∀ (i : Instr) (s : State), exec i s =
    .next { s with acc := (hardwareCommand i (registersOf s)).acc
                   out := (hardwareCommand i (registersOf s)).out
                   pc := s.pc + 1 }

/-- The frame of all five commands (R20's table, R101): only INIT and FOLD may change `ACC`, only FINAL and ROMRD may
change `OUT`, none touches the fault record, the program or the host's drives. There is no writable memory. -/
def Obligations.CommandFrame : Prop :=
  ∀ (i : Instr) (s t : State), exec i s = .next t →
    t.pc = s.pc + 1 ∧ t.fault = s.fault ∧ t.program = s.program ∧ t.port = s.port ∧
    (t.acc ≠ s.acc → i = .init ∨ ∃ b, i = .fold b) ∧
    (t.out ≠ s.out → i = .final ∨ ∃ k, i = .romrd k)

/-! ### Encoding (30_encoding.md) -/

/-- Words written out from the spec's vectors V-DEC1 to V-DEC14, a sanity statement. -/
def Obligations.SampleWordsDecode : Prop :=
  decode 0x0000#16 = .command .nop ∧ decode 0x0001#16 = .reserved .nopOperand 0x0001#16 ∧
  decode 0x0100#16 = .command .init ∧ decode 0x01FF#16 = .reserved .initOperand 0x01FF#16 ∧
  decode 0x0200#16 = .command (.fold 0x00#8) ∧ decode 0x0261#16 = .command (.fold 0x61#8) ∧
  decode 0x02FF#16 = .command (.fold 0xFF#8) ∧ decode 0x0300#16 = .command .final ∧
  decode 0x0380#16 = .reserved .finalOperand 0x0380#16 ∧ decode 0x0400#16 = .command (.romrd 0x00#8) ∧
  decode 0x04FF#16 = .command (.romrd 0xFF#8) ∧ decode 0x0500#16 = .reserved .unusedOpcode 0x0500#16 ∧
  decode 0x8000#16 = .reserved .unusedOpcode 0x8000#16 ∧ decode 0xFFFF#16 = .reserved .unusedOpcode 0xFFFF#16

/-- Decode and encode agree, for every instruction and every operand; as a number of the opcode table too. -/
def Obligations.DecodeOfEncodeIsTheInstruction : Prop :=
  ∀ i : Instr, i.wf = true ∧ decode (encode i) = .command i ∧ decodeTableWord 16 (encode i).toNat = some i

/-- The other direction: a word that decodes to a command is that command's encoding, so no two words are one command. -/
def Obligations.CommandWordIsItsEncoding : Prop :=
  ∀ (w : CmdWord) (i : Instr), decode w = .command i → encode i = w

/-- R62: the opcode map. A word that matches a row under its mask is that row's command, every other word is reserved,
and no two rows match the same word. -/
def Obligations.DecoderFollowsOpcodeMap : Prop :=
  (∀ (w : CmdWord) (r : OpcodeRow), r ∈ opcodeMap → w &&& r.mask = r.pattern →
    ∃ i, decode w = .command i ∧ i.mnemonic = r.mnemonic) ∧
  (∀ w : CmdWord, (∀ r ∈ opcodeMap, w &&& r.mask ≠ r.pattern) → ∃ c, decode w = .reserved c w) ∧
  (∀ (w : CmdWord) (q r : OpcodeRow), q ∈ opcodeMap → r ∈ opcodeMap →
    w &&& q.mask = q.pattern → w &&& r.mask = r.pattern → q = r) ∧
  (∀ w : CmdWord, w &&& 0xFF00#16 = 0x0200#16 → decode w = .command (.fold (w.setWidth 8))) ∧
  (∀ w : CmdWord, w &&& 0xFF00#16 = 0x0400#16 → decode w = .command (.romrd (w.setWidth 8)))

/-- R67: the decoder is total, and decides by the word's upper and lower byte as the rule's six lines say. -/
def Obligations.DecoderIsTotalByRule : Prop :=
  ∀ (w : CmdWord) (op imm : Nat), op = w.toNat / 256 → imm = w.toNat % 256 →
    decode w =
      if op = 0x00 ∧ imm = 0x00 then .command .nop
      else if op = 0x01 ∧ imm = 0x00 then .command .init
      else if op = 0x02 then .command (.fold (BitVec.ofNat 8 imm))
      else if op = 0x03 ∧ imm = 0x00 then .command .final
      else if op = 0x04 then .command (.romrd (BitVec.ofNat 8 imm))
      else if op = 0x00 then .reserved .nopOperand w
      else if op = 0x01 then .reserved .initOperand w
      else if op = 0x03 then .reserved .finalOperand w
      else .reserved .unusedOpcode w

/-- The four classes of reserved words and how many words each has; 65,021 reserved, 515 commands; the hardware performs
a reserved word as a command that changes no state (R63). That the model's record is a next state, after which every
step without a reset, an idle one included, answers the fault, is the model's reading, log entry 2. -/
def Obligations.ReservedWordsByClass : Prop :=
  (∀ w : CmdWord, decode w = .reserved .unusedOpcode w ↔ 0x0500 ≤ w.toNat) ∧
  (∀ w : CmdWord, decode w = .reserved .nopOperand w ↔ 0x0001 ≤ w.toNat ∧ w.toNat ≤ 0x00FF) ∧
  (∀ w : CmdWord, decode w = .reserved .initOperand w ↔ 0x0101 ≤ w.toNat ∧ w.toNat ≤ 0x01FF) ∧
  (∀ w : CmdWord, decode w = .reserved .finalOperand w ↔ 0x0301 ≤ w.toNat ∧ w.toNat ≤ 0x03FF) ∧
  (∀ (w v : CmdWord) (c : ReservedClass), decode w = .reserved c v →
    v = w ∧ (∀ r : Registers, hardwareStep ⟨false, some w⟩ r = r) ∧
    ∀ s : State, ∃ t, performWord w s = .next t ∧ t.fault = some (.illegalCommand w s.pc) ∧
      ∀ cmd, portStep ⟨false, cmd⟩ t = .fault (.illegalCommand w s.pc)) ∧
  countWords (fun w => decode w == .reserved .unusedOpcode w) = 64256 ∧
  countWords (fun w => decode w == .reserved .nopOperand w) = 255 ∧
  countWords (fun w => decode w == .reserved .initOperand w) = 255 ∧
  countWords (fun w => decode w == .reserved .finalOperand w) = 255 ∧
  countWords (fun w => (decode w).instr? == none) = 65021 ∧
  countWords (fun w => (decode w).instr? != none) = 515

/-! ### The step (10_state.md, 41_fold_engine.md R101, 60_exceptions.md, 70_reset_and_hazards.md) -/

/-- A step runs the decoded instruction. When no fault is recorded and the host presents the word at `pc`, which decodes
to `i`, the step is `exec i` after the host's drive of this step is consumed (the drives are the model's inputs, log
entry 1); nothing else stands around `exec`. -/
def Obligations.StepRunsDecodedInstruction : Prop :=
  ∀ (s : State) (w : CmdWord) (i : Instr), s.fault = none → currentDrive s = ⟨false, true⟩ →
    s.program[s.pc]? = some w → decode w = .command i → i.wf = true →
    step s = exec i { s with port := s.port.tail }

/-- R25: every presented word, a reserved one included, advances `pc` by exactly 1, so there are no branches. -/
def Obligations.EveryWordAdvancesPcByOne : Prop :=
  ∀ (w : CmdWord) (s : State), ∃ t, performWord w s = .next t ∧ t.pc = s.pc + 1 ∧
    t.program = s.program ∧ t.port = s.port ∧
    (∀ c, decode w = .reserved c w → t.acc = s.acc ∧ t.out = s.out)

/-- A reserved word leaves the hardware's registers alone; in the model it records the word and the `pc` at which it
stood with code 1, advances `pc` by 1, changes nothing else, and the model takes no further step (R131). That the record
is a next state and that every later step without a reset, an idle one included, answers the fault is the model's
reading, log entry 2; that a reset is excepted is log entry 6. -/
def Obligations.ReservedWordRecordsFaultAndStops : Prop :=
  ∀ (s : State) (w v : CmdWord) (c : ReservedClass), decode w = .reserved c v →
    (∀ r : Registers, hardwareStep ⟨false, some w⟩ r = r) ∧
    (s.fault = none → currentPins s = ⟨false, some w⟩ →
      ∃ t, step s = .next t ∧
        t = { s with fault := some (.illegalCommand w s.pc), pc := s.pc + 1, port := s.port.tail } ∧
        faultCode t.fault = 1 ∧ faultCode s.fault = 0 ∧
        ((currentDrive t).rst = false → step t = .fault (.illegalCommand w s.pc)))

/-- A recorded fault is kept until a reset starts a new run (R30, R131, R152; log entries 2 and 6): no step is taken
with it, whatever the host presents, and a reset clears it. -/
def Obligations.FaultRecordIsSticky : Prop :=
  ∀ (s : State) (f : Fault), s.fault = some f →
    ((currentDrive s).rst = false → step s = .fault f) ∧
    ((currentDrive s).rst = true → ∃ t, step s = .next t ∧ t.fault = none ∧ t.pc = 0)

/-- A step without a command changes nothing of the block (R28, R139); the host's drive of the step is used up (the
model's inputs, log entry 1). -/
def Obligations.IdleStepChangesNothing : Prop :=
  (∀ s : State, s.fault = none → currentDrive s = ⟨false, false⟩ → step s = .next { s with port := s.port.tail }) ∧
  (∀ r : Registers, hardwareStep ⟨false, none⟩ r = r)

/-- At the end of the program there is no command to present, so the step is idle (the model's choice, log entry 5). -/
def Obligations.FinishedProgramIdles : Prop :=
  ∀ s : State, s.fault = none → s.program.length ≤ s.pc → (currentDrive s).rst = false →
    step s = .next { s with port := s.port.tail }

/-- Reset wins over a command in the same step, which is lost; a new run of the program starts at `pc = 0` in the state
of R150 (R152). That a reset is a step which keeps the program and clears a recorded fault, in a faulted state too, is
the model's reading, log entry 6. -/
def Obligations.ResetWinsOverCommand : Prop :=
  (∀ s : State, (currentDrive s).rst = true →
    ∃ t, step s = .next t ∧ t.acc = 0xFFFFFFFF#32 ∧ t.out = 0x00000000#32 ∧ t.pc = 0 ∧ t.fault = none ∧
      t.program = s.program) ∧
  (∀ (cmd : Option CmdWord) (r : Registers), hardwareStep ⟨true, cmd⟩ r = ⟨0xFFFFFFFF#32, 0x00000000#32⟩)

/-- The state after reset, of one instance and of every instance of a block, the table as always (R150); a block has at
least one instance (R6, R138). A block as a list of instances reset together is log entry 8; that the pin `out` shows the
value after reset already in the step with `rst = 1` is the model's reading of R150 beside R141, log entry 7. -/
def Obligations.ResetState : Prop :=
  (State.reset.acc = 0xFFFFFFFF#32 ∧ State.reset.out = 0x00000000#32 ∧ State.reset.pc = 0 ∧
    State.reset.fault = none) ∧
  (∀ i : Byte, romRead i = reduce8 i) ∧
  (∀ (b : Block) (k : Nat) (s : State), (blockReset b).engines[k]? = some s →
    s.acc = 0xFFFFFFFF#32 ∧ s.out = 0x00000000#32 ∧ s.pc = 0 ∧ s.fault = none) ∧
  (∀ s ∈ Block.reset.engines, s = State.reset) ∧ 1 ≤ Block.reset.engines.length ∧
  (∀ (cmd : Option CmdWord) (s : State), outPin ⟨true, cmd⟩ s = 0x00000000#32)

/-- Placing a command word makes the very next step run it, in any state, with `ACC`, `OUT` and `pc` as they were. All of
`withFetchWord` (placing the word, clearing a fault, adding a drive) is the model's choice, log entry 15. -/
def Obligations.PlacedWordRunsNext : Prop :=
  ∀ (s : State) (w : Nat) (i : Instr), decodeTableWord 16 w = some i → w < 2 ^ 16 →
    ∃ u, step (s.withFetchWord 16 w) = exec i u ∧ u.acc = s.acc ∧ u.out = s.out ∧ u.pc = s.pc ∧ u.fault = none

/-! ### Invariant and runs (70_reset_and_hazards.md R157, R158) -/

/-- The invariant holds at reset and in every start state of a run (R158; a host that presents in every step, log entry 1). -/
def Obligations.StartStatesMeetRunInv : Prop :=
  StartState State.reset ∧ ∀ s : State, StartState s → RunInv s

/-- Every step keeps the bookkeeping invariant: `pc` is in 0..L (R25), and a recorded fault names the reserved word that
stands in the program just before `pc` (R30, R131). It rests on the model's reading of the record (log entry 2) and of
reset (log entry 6). -/
def Obligations.StepKeepsRunInv : Prop :=
  ∀ s t : State, RunInv s → step s = .next t → RunInv t

/-- Every run ends after at most L steps, normally with `pc = L`, or with a recorded fault (R157). A run's host presents
a command in every step (the model's inputs, log entry 1), and the record is a next state (log entry 2). -/
def Obligations.EveryRunEnds : Prop :=
  ∀ s : State, StartState s →
    ∃ (k : Nat) (t : State), k ≤ s.program.length ∧ core.run k s = .next t ∧ t.program = s.program ∧
      (Finished t ∨ Faulted t)

/-- A run of the step function over the encodings of any commands performs them in order (R25, R48, R101), the host
presenting one in every step (log entry 1). -/
def Obligations.RunPerformsCommandsInOrder : Prop :=
  ∀ (cs : List Instr) (s : State), StartState s → s.program = cs.map encode →
    core.run cs.length s = performAll cs s

/-! ### The hardware and the model (60_exceptions.md R131, R134) -/

/-- Whenever the model steps, the hardware's registers do what the model's do: the model differs from the hardware only
by stopping. -/
def Obligations.ModelStepAgreesWithHardware : Prop :=
  ∀ s t : State, step s = .next t → registersOf t = hardwareStep (currentPins s) (registersOf s)

/-- The hardware ignores reserved words and idle steps and goes on with the next command (R131, R134, R139): leaving
them out of any sequence of steps changes nothing. -/
def Obligations.HardwareIgnoresReservedAndIdle : Prop :=
  ∀ (ps : List PortInput) (r : Registers), hardwareRun ps r = hardwareRun (ps.filter effectiveStep) r

/-! ### What flows where (10_state.md R21, R22, 41_fold_engine.md R111) -/

/-- No command reads `OUT` (R22): a step of a state with another `OUT` ends alike, and its next state differs from this
one's in `OUT` at most: either the step kept `OUT` in both states, or it wrote the same value in both. -/
def Obligations.OutIsReadByNoCommand : Prop :=
  ∀ (s : State) (v : Word),
    (∀ t, step s = .next t → ∃ v', step { s with out := v } = .next { t with out := v' } ∧
      ((t.out = s.out ∧ v' = v) ∨ v' = t.out)) ∧
    (∀ f, step s = .fault f → step { s with out := v } = .fault f)

/-- `ACC` reaches `OUT` through FINAL alone (R21): every other command leaves the same `OUT` whatever `ACC` held, and
FINAL shows exactly the complement. -/
def Obligations.AccIsSeenThroughFinalAlone : Prop :=
  (∀ (i : Instr) (s t t' : State) (a : Word), i ≠ .final → exec i s = .next t →
    exec i { s with acc := a } = .next t' → t'.out = t.out) ∧
  (∀ s t : State, exec .final s = .next t → t.out = ~~~s.acc ∧ t.acc = s.acc)

/-- Determinism (R111): the registers and the fault that a command sequence leaves depend on the registers and the fault
it starts from, and on nothing else of the state. -/
def Obligations.RegistersDecideTheResult : Prop :=
  ∀ (cs : List Instr) (s s' : State), s.acc = s'.acc → s.out = s'.out → s.fault = s'.fault →
    ∃ t t', performAll cs s = .next t ∧ performAll cs s' = .next t' ∧
      t.acc = t'.acc ∧ t.out = t'.out ∧ t.fault = t'.fault

/-! ### Laws of messages (41_fold_engine.md R106 to R110, 20_memory.md R43) -/

/-- R106: INIT, the folds of `m`, FINAL leave `OUT = crc32(m)`. NOPs and ROMRDs may stand anywhere before the FINAL, and
anything before the INIT; after reset the INIT may be left out; a ROMRD after the FINAL overwrites `OUT`. -/
def Obligations.MessageLeavesItsChecksum : Prop :=
  (∀ (m : List Byte) (s : State), performAll (.init :: (m.map .fold ++ [.final])) s =
    .next { s with acc := foldBytes m 0xFFFFFFFF#32, out := crc32 m, pc := s.pc + m.length + 2 }) ∧
  (∀ (pre cs : List Instr) (s : State), cs.all insideMessage = true →
    ∃ t, performAll (pre ++ .init :: (cs ++ [.final])) s = .next t ∧ t.out = crc32 (foldedBytes cs) ∧
      t.fault = s.fault) ∧
  (∀ (cs : List Instr) (s : State), cs.all insideMessage = true → s.acc = State.reset.acc →
    ∃ t, performAll (cs ++ [.final]) s = .next t ∧ t.out = crc32 (foldedBytes cs)) ∧
  (∀ (m : List Byte) (i : Byte) (s : State),
    ∃ t, performAll (.init :: (m.map .fold ++ [.final, .romrd i])) s = .next t ∧ t.out = romRead i)

/-- R107: one FOLD is eight rounds of the bit reduction on the accumulator with the byte XORed into its low bits, and a
table-driven checksum is the naive bit-by-bit one. -/
def Obligations.FoldIsEightBitRounds : Prop :=
  (∀ (b : Byte) (s : State), exec (.fold b) s =
    .next { s with acc := foldBitwise s.acc b, pc := s.pc + 1 }) ∧
  (∀ m : List Byte, crc32 m = crc32Bitwise m)

/-- R43: bit 0 of a message byte is the first of its bits in the division, and each enters at the position of `ACC[0]`. -/
def Obligations.FoldTakesBitZeroFirst : Prop :=
  ∀ (b : Byte) (s : State), exec (.fold b) s =
    .next { s with acc := foldBitSerial s.acc b, pc := s.pc + 1 }

/-- Order dependence (R108, R42): exchanging two neighbouring bytes that differ always changes the checksum, which
follows from the table's laws (R81, R83); with the two checksums of R108. -/
def Obligations.ByteOrderMatters : Prop :=
  (∀ (m m' : List Byte) (b c : Byte), b ≠ c → crc32 (m ++ b :: c :: m') ≠ crc32 (m ++ c :: b :: m')) ∧
  crc32 [0x61#8, 0x62#8] = 0x9E83486D#32 ∧ crc32 [0x62#8, 0x61#8] = 0x2CA74A14#32

/-- R109: two messages of the same length that differ in exactly one byte have different checksums. -/
def Obligations.OneByteChangesTheChecksum : Prop :=
  ∀ (m m' : List Byte) (b c : Byte), b ≠ c → crc32 (m ++ b :: m') ≠ crc32 (m ++ c :: m')

/-- Continuation (R110): after a FINAL, folding `m'` and another FINAL give the checksum of the concatenation. -/
def Obligations.FinalLetsTheMessageContinue : Prop :=
  ∀ (m m' : List Byte) (s : State),
    ∃ t u, performAll (.init :: (m.map .fold ++ [.final])) s = .next t ∧ t.out = crc32 m ∧
      performAll (m'.map .fold ++ [.final]) t = .next u ∧ u.out = crc32 (m ++ m')

/-! ### The block (10_state.md R31, 60_exceptions.md R138) -/

/-- An instance's step changes no other instance and depends on no other instance, and steps of two instances may be
taken in either order (R31; the block as a list of instances that step one at a time is log entry 8). -/
def Obligations.EnginesAreIndependent : Prop :=
  (∀ (j k : Nat) (b : Block), j ≠ k → (blockStep k b).engines[j]? = b.engines[j]?) ∧
  (∀ (k : Nat) (b b' : Block), b.engines[k]? = b'.engines[k]? →
    (blockStep k b).engines[k]? = (blockStep k b').engines[k]?) ∧
  (∀ (j k : Nat) (b : Block), blockStep j (blockStep k b) = blockStep k (blockStep j b))

/-- The order in which the instances make their steps changes no value of the block (R31, R48; log entry 8). -/
def Obligations.EngineInterleavingIsIrrelevant : Prop :=
  ∀ (ks ks' : List Nat) (b : Block), ks.Perm ks' → blockRun ks b = blockRun ks' b

/-! ### The host (10_state.md R22, 20_memory.md R52) -/

/-- The host reads `OUT` at any step without a reset, and the state does not change (R22, R28, R141). A step with
`rst = 1` is left out: what the pin shows there is log entry 7, stated in ResetState. -/
def Obligations.HostReadsOutWithoutEffect : Prop :=
  ∀ s : State, (currentDrive s).rst = false → hostRead s = (s.out, s)

/-- R52: the text of a result is eight lowercase hex digits, most significant first with leading zeros kept, with or
without `0x`, and stands for the value; with the rule's example. -/
def Obligations.HexTextIsCanonical : Prop :=
  (∀ w : Word, (hexText w).length = 8 ∧ (∀ c ∈ hexText w, c ∈ hexDigits) ∧
    readDigits 16 (hexText w) 0 false = some (w.toNat, []) ∧
    readNumber (hexTextPrefixed w) = some (w.toNat, [])) ∧
  hexText (BitVec.ofNat 32 1095738169) = ['4', '1', '4', 'f', 'a', '3', '3', '9']

/-! ### The assembler (30_encoding.md R65, R66) -/

/-- The lines of R65's table: each command's word for every operand from 0 to 255 and every character from U+0020 to
U+007E, `.cmd` for every word; outside these ranges the line is refused and emits nothing. -/
def Obligations.AssemblerLinesAsListed : Prop :=
  assembleLine .nop = .ok [0x0000#16] ∧ assembleLine .init = .ok [0x0100#16] ∧
  assembleLine .final = .ok [0x0300#16] ∧
  (∀ n : Nat, n ≤ 255 → assembleLine (.fold (.number n)) = .ok [BitVec.ofNat 16 (0x0200 + n)] ∧
    assembleLine (.romrd (.number n)) = .ok [BitVec.ofNat 16 (0x0400 + n)]) ∧
  (∀ c : Nat, 0x20 ≤ c → c ≤ 0x7E → assembleLine (.fold (.char c)) = .ok [BitVec.ofNat 16 (0x0200 + c)] ∧
    assembleLine (.romrd (.char c)) = .ok [BitVec.ofNat 16 (0x0400 + c)]) ∧
  (∀ w : CmdWord, assembleLine (.cmd w.toNat) = .ok [w]) ∧
  (∀ n : Nat, 255 < n → assembleLine (.fold (.number n)) = .error (.numberOutOfRange n) ∧
    assembleLine (.romrd (.number n)) = .error (.numberOutOfRange n)) ∧
  (∀ c : Nat, (c < 0x20 ∨ 0x7E < c) → assembleLine (.fold (.char c)) = .error (.charOutOfRange c) ∧
    assembleLine (.romrd (.char c)) = .error (.charOutOfRange c))

/-- The pseudo-instructions emit what their expansions emit, in order (R66's table). An empty byte list is refused
(the model's choice, log entry 13), so the lists here are not empty. Where a line is refused, the equalities rest on the
model's choice that a text is refused whole with its first refusal, log entry 14. The refusal of `crc.text` is stated
in Utf8BytesByLeadAndContinuation. -/
def Obligations.PseudoInstructionsExpand : Prop :=
  (∀ xs : List AsmOperand, xs ≠ [] → assembleLine (.bytes xs) = assemble (xs.map .fold)) ∧
  (∀ xs : List AsmOperand, xs ≠ [] →
    assembleLine (.msgbytes xs) = assemble [.init, .bytes xs, .final]) ∧
  (∀ s : List Nat, assembleLine (.msg s) = assemble [.init, .text s, .final]) ∧
  (∀ (s : List Nat) (bs : List Byte), utf8Bytes s = .ok bs → assembleLine (.text s) = .ok (foldWords bs))

/-- A code point is encoded as its own byte up to U+007F and as two to four bytes above it (R66), no two code points
alike, and what is no Unicode scalar value is refused. UTF-8 itself is from general knowledge (log entry 11). -/
def Obligations.CodePointsAreOneToFourBytesNoTwoAlike : Prop :=
  (∀ c : Nat, c ≤ 0x7F → utf8Char c = .ok [BitVec.ofNat 8 c]) ∧
  (∀ c : Nat, 0x7F < c → isScalar c = true → ∃ bs, utf8Char c = .ok bs ∧ 2 ≤ bs.length ∧ bs.length ≤ 4) ∧
  (∀ c : Nat, isScalar c = false → utf8Char c = .error (.notUnicode c)) ∧
  (∀ (c d : Nat) (bs : List Byte), utf8Char c = .ok bs → utf8Char d = .ok bs → c = d)

/-- The encoding form of text (R66 names it, log entry 11 presumes it): the lead byte and the continuation bytes of each
multi-byte form, which hold the code point's bits in order; a text's bytes are its code points' bytes joined in order; a
text is refused exactly when a code point in it is no scalar value, and `crc.text` and `crc.msg` are then refused with
the same reason. -/
def Obligations.Utf8BytesByLeadAndContinuation : Prop :=
  (∀ c : Nat, 0x80 ≤ c → c < 0x800 → ∃ a b : Byte, utf8Char c = .ok [a, b] ∧
    0xC2 ≤ a.toNat ∧ a.toNat ≤ 0xDF ∧ 0x80 ≤ b.toNat ∧ b.toNat ≤ 0xBF ∧
    c = (a.toNat - 0xC0) * 64 + (b.toNat - 0x80)) ∧
  (∀ c : Nat, isScalar c = true → 0x800 ≤ c → c < 0x10000 → ∃ a b d : Byte, utf8Char c = .ok [a, b, d] ∧
    0xE0 ≤ a.toNat ∧ a.toNat ≤ 0xEF ∧ 0x80 ≤ b.toNat ∧ b.toNat ≤ 0xBF ∧ 0x80 ≤ d.toNat ∧ d.toNat ≤ 0xBF ∧
    c = (a.toNat - 0xE0) * 4096 + (b.toNat - 0x80) * 64 + (d.toNat - 0x80)) ∧
  (∀ c : Nat, isScalar c = true → 0x10000 ≤ c → ∃ a b d e : Byte, utf8Char c = .ok [a, b, d, e] ∧
    0xF0 ≤ a.toNat ∧ a.toNat ≤ 0xF4 ∧ 0x80 ≤ b.toNat ∧ b.toNat ≤ 0xBF ∧ 0x80 ≤ d.toNat ∧ d.toNat ≤ 0xBF ∧
    0x80 ≤ e.toNat ∧ e.toNat ≤ 0xBF ∧
    c = (a.toNat - 0xF0) * 262144 + (b.toNat - 0x80) * 4096 + (d.toNat - 0x80) * 64 + (e.toNat - 0x80)) ∧
  utf8Bytes [] = .ok [] ∧
  (∀ (c : Nat) (s : List Nat) (bs cs : List Byte), utf8Char c = .ok bs → utf8Bytes s = .ok cs →
    utf8Bytes (c :: s) = .ok (bs ++ cs)) ∧
  (∀ s : List Nat, (∃ e, utf8Bytes s = .error e) ↔ ∃ c ∈ s, isScalar c = false) ∧
  (∀ (s : List Nat) (e : AsmError), utf8Bytes s = .error e →
    assembleLine (.text s) = .error e ∧ assembleLine (.msg s) = .error e)

/-- What the assembler emits for a line other than `.cmd` is commands, never a reserved word (R63, R65, R66). -/
def Obligations.AssembledLinesAreCommands : Prop :=
  ∀ (l : AsmLine) (ws : List CmdWord), assembleLine l = .ok ws → (∀ n, l ≠ .cmd n) →
    ∀ w ∈ ws, isCommandWord w = true

/-- A message from text to result: the assembled `crc.msg`, run from any start state, ends normally after one step per
byte and two more, with the bit-by-bit CRC-32 of the text's UTF-8 bytes in `OUT` (R66, R106, R107, R156, R157; UTF-8 is
log entry 11, the host presenting in every step log entry 1). -/
def Obligations.AssembledMessageRunsToItsChecksum : Prop :=
  ∀ (text : List Nat) (bs : List Byte) (s : State), utf8Bytes text = .ok bs → StartState s →
    assembleLine (.msg text) = .ok s.program →
    ∃ t, core.run (bs.length + 2) s = .next t ∧ Finished t ∧ t.out = crc32Bitwise bs
end

