-- ==== Sys2Proof/Laws/Assembler.lean ====
section
/-! SUPPORT. The traversal of a list by the assembler. -/

namespace Sys2Proof.Machine

@[simp] theorem traverseAsm_nil {α β : Type} (f : α → Except AsmError β) : traverseAsm f [] = .ok [] := rfl

/-- A traversal that succeeds gives one result an element, each from its element. -/
theorem traverseAsm_forall₂ {α β : Type} {f : α → Except AsmError β} {xs : List α} {ys : List β}
    (h : traverseAsm f xs = .ok ys) : List.Forall₂ (fun x y => f x = .ok y) xs ys := by
  induction xs generalizing ys with
  | nil => injection h with h; subst h; exact .nil
  | cons x xs ih =>
    rw [traverseAsm] at h
    cases hx : f x with
    | error e => simp [hx] at h
    | ok y =>
      cases ht : traverseAsm f xs with
      | error e => simp [hx, ht] at h
      | ok zs =>
        simp only [hx, ht] at h
        injection h with h
        subst h
        exact .cons hx (ih ht)

/-- A traversal that is refused is refused by its first refused element, everything before which was accepted. -/
theorem traverseAsm_error {α β : Type} {f : α → Except AsmError β} {xs : List α} {e : AsmError}
    (h : traverseAsm f xs = .error e) :
    ∃ pre x post ys, xs = pre ++ x :: post ∧ traverseAsm f pre = .ok ys ∧ f x = .error e := by
  induction xs with
  | nil => cases h
  | cons x xs ih =>
    rw [traverseAsm] at h
    cases hx : f x with
    | error e' =>
      simp only [hx] at h
      exact ⟨[], x, xs, [], rfl, rfl, by injection h with h; rw [hx, h]⟩
    | ok y =>
      cases ht : traverseAsm f xs with
      | ok zs => simp [hx, ht] at h
      | error e' =>
        simp only [hx, ht] at h
        obtain ⟨pre, z, post, ys, rfl, hp, hz⟩ := ih (by rw [ht]; exact h)
        exact ⟨x :: pre, z, post, y :: ys, rfl, by rw [traverseAsm, hx, hp], hz⟩

end Sys2Proof.Machine
end

