-- ==== Sys2Proof/Laws/State.lean ====
section
/-! SUPPORT. What each named update of the state does to each field, by `rfl`. -/

namespace Sys2Proof.Machine

@[simp] theorem setAcc_acc (v : Word) (s : State) : (setAcc v s).acc = v := rfl
@[simp] theorem setAcc_out (v : Word) (s : State) : (setAcc v s).out = s.out := rfl
@[simp] theorem setAcc_pc (v : Word) (s : State) : (setAcc v s).pc = s.pc := rfl
@[simp] theorem setAcc_fault (v : Word) (s : State) : (setAcc v s).fault = s.fault := rfl
@[simp] theorem setAcc_program (v : Word) (s : State) : (setAcc v s).program = s.program := rfl
@[simp] theorem setAcc_port (v : Word) (s : State) : (setAcc v s).port = s.port := rfl

@[simp] theorem setOut_acc (v : Word) (s : State) : (setOut v s).acc = s.acc := rfl
@[simp] theorem setOut_out (v : Word) (s : State) : (setOut v s).out = v := rfl
@[simp] theorem setOut_pc (v : Word) (s : State) : (setOut v s).pc = s.pc := rfl
@[simp] theorem setOut_fault (v : Word) (s : State) : (setOut v s).fault = s.fault := rfl
@[simp] theorem setOut_program (v : Word) (s : State) : (setOut v s).program = s.program := rfl
@[simp] theorem setOut_port (v : Word) (s : State) : (setOut v s).port = s.port := rfl

@[simp] theorem advancePc_acc (s : State) : (advancePc s).acc = s.acc := rfl
@[simp] theorem advancePc_out (s : State) : (advancePc s).out = s.out := rfl
@[simp] theorem advancePc_pc (s : State) : (advancePc s).pc = s.pc + 1 := rfl
@[simp] theorem advancePc_fault (s : State) : (advancePc s).fault = s.fault := rfl
@[simp] theorem advancePc_program (s : State) : (advancePc s).program = s.program := rfl
@[simp] theorem advancePc_port (s : State) : (advancePc s).port = s.port := rfl

@[simp] theorem takeIllegalCommand_acc (w : CmdWord) (s : State) : (takeIllegalCommand w s).acc = s.acc := rfl
@[simp] theorem takeIllegalCommand_out (w : CmdWord) (s : State) : (takeIllegalCommand w s).out = s.out := rfl
@[simp] theorem takeIllegalCommand_pc (w : CmdWord) (s : State) : (takeIllegalCommand w s).pc = s.pc + 1 := rfl
@[simp] theorem takeIllegalCommand_fault (w : CmdWord) (s : State) : (takeIllegalCommand w s).fault = some (.illegalCommand w s.pc) := rfl
@[simp] theorem takeIllegalCommand_program (w : CmdWord) (s : State) : (takeIllegalCommand w s).program = s.program := rfl
@[simp] theorem takeIllegalCommand_port (w : CmdWord) (s : State) : (takeIllegalCommand w s).port = s.port := rfl

@[simp] theorem applyReset_acc (s : State) : (applyReset s).acc = 0xFFFFFFFF#32 := rfl
@[simp] theorem applyReset_out (s : State) : (applyReset s).out = 0x00000000#32 := rfl
@[simp] theorem applyReset_pc (s : State) : (applyReset s).pc = 0 := rfl
@[simp] theorem applyReset_fault (s : State) : (applyReset s).fault = none := rfl
@[simp] theorem applyReset_program (s : State) : (applyReset s).program = s.program := rfl
@[simp] theorem applyReset_port (s : State) : (applyReset s).port = s.port := rfl

@[simp] theorem consumeDrive_acc (s : State) : (consumeDrive s).acc = s.acc := rfl
@[simp] theorem consumeDrive_out (s : State) : (consumeDrive s).out = s.out := rfl
@[simp] theorem consumeDrive_pc (s : State) : (consumeDrive s).pc = s.pc := rfl
@[simp] theorem consumeDrive_fault (s : State) : (consumeDrive s).fault = s.fault := rfl
@[simp] theorem consumeDrive_program (s : State) : (consumeDrive s).program = s.program := rfl
@[simp] theorem consumeDrive_port (s : State) : (consumeDrive s).port = s.port.tail := rfl

@[simp] theorem reset_acc : State.reset.acc = 0xFFFFFFFF#32 := rfl
@[simp] theorem reset_out : State.reset.out = 0x00000000#32 := rfl
@[simp] theorem reset_pc : State.reset.pc = 0 := rfl
@[simp] theorem reset_fault : State.reset.fault = none := rfl
@[simp] theorem reset_program : State.reset.program = [] := rfl
@[simp] theorem reset_port : State.reset.port = [] := rfl

end Sys2Proof.Machine
end

