-- ==== Sys2Proof/Laws/Words.lean ====
section
/-! SUPPORT. The two fields of a command word as numbers, and the fields of an encoded operand. -/

namespace Sys2Proof

theorem opField_toNat (w : CmdWord) : (opField w).toNat = w.toNat / 256 := by
  have := w.isLt
  simp only [opField, BitVec.extractLsb'_toNat, Nat.shiftRight_eq_div_pow]
  omega

theorem immField_toNat (w : CmdWord) : (immField w).toNat = w.toNat % 256 := by
  simp [immField]

/-- A word is its two bytes: `0x100 * OP + IMM8` (R60). -/
theorem word_toNat_fields (w : CmdWord) : w.toNat = 256 * (opField w).toNat + (immField w).toNat := by
  rw [opField_toNat, immField_toNat]
  omega

/-- A field holds a constant exactly when its number is the constant's. -/
theorem byte_eq_iff (b : Byte) (n : Nat) (h : n < 256) : b = BitVec.ofNat 8 n ↔ b.toNat = n := by
  rw [← BitVec.toNat_inj, BitVec.toNat_ofNat, Nat.mod_eq_of_lt h]

theorem encode_fold_toNat (b : Byte) : (encode (.fold b)).toNat = 0x0200 + b.toNat := by
  have := b.isLt
  simp only [encode, BitVec.toNat_add, BitVec.toNat_setWidth, BitVec.toNat_ofNat]
  omega

theorem encode_romrd_toNat (i : Byte) : (encode (.romrd i)).toNat = 0x0400 + i.toNat := by
  have := i.isLt
  simp only [encode, BitVec.toNat_add, BitVec.toNat_setWidth, BitVec.toNat_ofNat]
  omega

/-- The mask of FOLD's and ROMRD's rows keeps the opcode (R62). -/
theorem high_mask_toNat (w : CmdWord) : (w &&& 0xFF00#16).toNat = w.toNat / 256 * 256 := by
  have h : w &&& 0xFF00#16 = (w >>> 8) <<< 8 := by
    ext j hj
    interval_cases j <;> simp
  have := w.isLt
  rw [h, BitVec.toNat_shiftLeft, BitVec.toNat_ushiftRight, Nat.shiftRight_eq_div_pow, Nat.shiftLeft_eq]
  omega

/-- The mask of the other rows keeps the whole word (R62). -/
theorem full_mask (w : CmdWord) : w &&& 0xFFFF#16 = w := BitVec.and_allOnes

end Sys2Proof
end

