-- ==== Sys2Proof/Laws/Step.lean ====
section
/-! SUPPORT. What each meaning answers, and once and for all what a presented word and a step can do. -/

namespace Sys2Proof.Machine

@[simp] theorem exec_nop (s : State) : exec .nop s = .next (advancePc s) := rfl
@[simp] theorem exec_init (s : State) : exec .init s = .next (advancePc (setAcc Config.initAcc s)) := rfl
@[simp] theorem exec_fold (b : Byte) (s : State) :
    exec (.fold b) s = .next (advancePc (setAcc (foldByte s.acc b) s)) := rfl
@[simp] theorem exec_final (s : State) : exec .final s = .next (advancePc (setOut (finalise s.acc) s)) := rfl
@[simp] theorem exec_romrd (i : Byte) (s : State) :
    exec (.romrd i) s = .next (advancePc (setOut (romRead i) s)) := rfl

/-- A decoded reserved word carries the word itself. -/
theorem decode_reserved_word {w v : CmdWord} {c : ReservedClass} (h : decode w = .reserved c v) : v = w := by
  unfold decode at h
  repeat' split at h
  all_goals first | exact (Decoded.reserved.inj h).2.symm | exact absurd h Decoded.noConfusion

/-- A presented word is a command performed, or a reserved word whose fault is taken (R101, R131). -/
theorem performWord_cases (w : CmdWord) (s : State) :
    (∃ i, decode w = .command i ∧ performWord w s = exec i s) ∨
    (∃ c, decode w = .reserved c w ∧ performWord w s = .next (takeIllegalCommand w s)) := by
  cases h : decode w with
  | command i => exact .inl ⟨i, rfl, by simp [performWord, h]⟩
  | reserved c v =>
    obtain rfl := decode_reserved_word h
    exact .inr ⟨c, rfl, by simp [performWord, h]⟩

/-- Everything a step that answers a next state can have done: a reset, nothing, or a presented word (R28, R101, R152). -/
theorem step_next_cases {s t : State} (h : step s = .next t) :
    ((currentPins s).rst = true ∧ t = applyReset (consumeDrive s)) ∨
    ((currentPins s).rst = false ∧ s.fault = none ∧ (currentPins s).cmd = none ∧ t = consumeDrive s) ∨
    (∃ w, (currentPins s).rst = false ∧ s.fault = none ∧ (currentPins s).cmd = some w ∧
      s.program[s.pc]? = some w ∧ performWord w (consumeDrive s) = .next t) := by
  unfold step portStep at h
  split at h
  · next hr => exact .inl ⟨hr, by injection h with h; exact h.symm⟩
  · next hr =>
    rw [Bool.not_eq_true] at hr
    cases hf : s.fault with
    | some f => simp [hf] at h
    | none =>
      simp only [consumeDrive_fault, hf] at h
      cases hc : (currentPins s).cmd with
      | none =>
        simp only [hc] at h
        exact .inr (.inl ⟨hr, rfl, rfl, by injection h with h; exact h.symm⟩)
      | some w =>
        simp only [hc] at h
        refine .inr (.inr ⟨w, hr, rfl, rfl, ?_, h⟩)
        simp only [currentPins, nextCommand] at hc
        split at hc
        · exact hc
        · cases hc

/-- A fault answered by a step is the recorded one (R131). -/
theorem step_fault_recorded {s : State} {f : Fault} (h : step s = .fault f) : s.fault = some f := by
  unfold step portStep at h
  split at h
  · cases h
  · cases hf : (consumeDrive s).fault with
    | some g => simp only [hf] at h; injection h with h; rw [← h]; exact hf
    | none =>
      simp only [hf] at h
      cases hc : (currentPins s).cmd with
      | none => simp [hc] at h
      | some w =>
        simp only [hc] at h
        obtain ⟨i, -, he⟩ | ⟨c, -, he⟩ := performWord_cases w (consumeDrive s)
        · rw [he] at h; cases i <;> simp at h
        · rw [he] at h; cases h

end Sys2Proof.Machine
end

