-- ==== Sys2Proof/Laws/Block.lean ====
section
/-! SUPPORT. What one instance's step can do to the block. -/

namespace Sys2Proof.Machine

/-- The block is as it was, or instance `k` has made its step. -/
theorem blockStep_cases (k : Nat) (b : Block) :
    blockStep k b = b ∨
    ∃ s t, b.engines[k]? = some s ∧ step s = .next t ∧ blockStep k b = ⟨b.engines.set k t⟩ := by
  unfold blockStep
  cases hk : b.engines[k]? with
  | none => exact .inl rfl
  | some s =>
    cases hs : step s with
    | next t => exact .inr ⟨s, t, rfl, hs, by simp [hs]⟩
    | fault f => simp [hs]
    | refused r => simp [hs]

/-- No step adds or removes an instance. -/
@[simp] theorem blockStep_length (k : Nat) (b : Block) : (blockStep k b).engines.length = b.engines.length := by
  obtain h | ⟨s, t, -, -, h⟩ := blockStep_cases k b <;> simp [h]

end Sys2Proof.Machine
end

