-- ==== Sys2Proof/Laws/Hardware.lean ====
section
/-! SUPPORT. The hardware's step by its signals. -/

namespace Sys2Proof.Machine

@[simp] theorem hardwareStep_reset (cmd : Option CmdWord) (r : Registers) :
    hardwareStep ⟨true, cmd⟩ r = ⟨0xFFFFFFFF#32, 0x00000000#32⟩ := rfl

@[simp] theorem hardwareStep_word (w : CmdWord) (r : Registers) : hardwareStep ⟨false, some w⟩ r = hardwareWord w r := rfl

theorem hardwareWord_command {w : CmdWord} {i : Instr} (h : decode w = .command i) (r : Registers) :
    hardwareWord w r = hardwareCommand i r := by
  simp [hardwareWord, h]

theorem hardwareWord_reserved {w v : CmdWord} {c : ReservedClass} (h : decode w = .reserved c v) (r : Registers) :
    hardwareWord w r = r := by
  simp [hardwareWord, h]

end Sys2Proof.Machine
end

