-- ==== Sys2Proof/Laws/Message.lean ====
section
/-! SUPPORT. Sequences of commands and of bytes, taken apart at a join. -/

namespace Sys2Proof.Machine

@[simp] theorem performAll_nil (s : State) : performAll [] s = .next s := rfl

/-- A sequence goes on from the state its first command leaves. -/
theorem performAll_cons {i : Instr} {s t : State} (is : List Instr) (h : exec i s = .next t) :
    performAll (i :: is) s = performAll is t := by
  rw [performAll, h]

/-- A sequence goes on from the state its first part leaves. -/
theorem performAll_append {cs : List Instr} {s t : State} (ds : List Instr) (h : performAll cs s = .next t) :
    performAll (cs ++ ds) s = performAll ds t := by
  induction cs generalizing s with
  | nil => injection h with h; rw [List.nil_append, h]
  | cons c cs ih =>
    rw [performAll] at h
    rw [List.cons_append, performAll]
    cases he : exec c s with
    | next u => simp only [he] at h ⊢; exact ih h
    | fault f => simp [he] at h
    | refused r => simp [he] at h

theorem foldBytes_append (m m' : List Byte) (acc : Word) :
    foldBytes (m ++ m') acc = foldBytes m' (foldBytes m acc) := by
  induction m generalizing acc with
  | nil => rfl
  | cons b m ih => exact ih _

@[simp] theorem foldedBytes_map_fold (m : List Byte) : foldedBytes (m.map .fold) = m := by
  induction m with
  | nil => rfl
  | cons b m ih => simp [foldedBytes, ih]

end Sys2Proof.Machine
end

