-- ==== Sys2Proof/Laws/PerInstr.lean ====
section
/-! SUPPORT. One statement per instruction as syntax, and one lemma per constructor: the family `Encoding`, whose
statement is that the instruction is well formed and that its word matches the row of the opcode map (R62) that bears
its mnemonic. -/

namespace Sys2Proof.Laws.Encoding

/-- The instruction's word matches its own row of the opcode map under the row's mask. -/
def Statement (i : Instr) : Prop :=
  i.wf = true ∧ ∃ r ∈ opcodeMap, r.mnemonic = i.mnemonic ∧ r.accepts (encode i) = true

theorem nop : Statement .nop := ⟨rfl, ⟨"crc.nop", 0x0000#16, 0xFFFF#16⟩, by simp [opcodeMap], rfl, rfl⟩

theorem init : Statement .init := ⟨rfl, ⟨"crc.init", 0x0100#16, 0xFFFF#16⟩, by simp [opcodeMap], rfl, rfl⟩

theorem fold (b : Byte) : Statement (.fold b) :=
  ⟨rfl, ⟨"crc.fold", 0x0200#16, 0xFF00#16⟩, by simp [opcodeMap], rfl, by revert b; decide⟩

theorem final : Statement .final := ⟨rfl, ⟨"crc.final", 0x0300#16, 0xFFFF#16⟩, by simp [opcodeMap], rfl, rfl⟩

theorem romrd (i : Byte) : Statement (.romrd i) :=
  ⟨rfl, ⟨"crc.romrd", 0x0400#16, 0xFF00#16⟩, by simp [opcodeMap], rfl, by revert i; decide⟩

end Sys2Proof.Laws.Encoding
end

