-- ==== Sys2Proof/Laws/Rom.lean ====
section
/-! SUPPORT. The rounds of the reduction are linear over XOR, the reason R81 gives for the table's laws; and
what an operand form and a fold come to. -/

namespace Sys2Proof.Machine

/-- A round as the shift XORed with `rem[0]` times the polynomial. -/
theorem reduceRound_eq (x : Word) :
    reduceRound x = (x >>> 1) ^^^ (if x.getLsbD 0 then Config.poly else 0#32) := by
  unfold reduceRound
  split <;> simp_all

theorem reduceRound_xor (x y : Word) : reduceRound (x ^^^ y) = reduceRound x ^^^ reduceRound y := by
  rw [reduceRound_eq, reduceRound_eq, reduceRound_eq, BitVec.ushiftRight_xor_distrib, BitVec.getLsbD_xor]
  cases x.getLsbD 0 <;> cases y.getLsbD 0 <;> ext j <;> simp <;>
    cases Config.poly[j] <;> cases (x >>> 1)[j] <;> cases (y >>> 1)[j] <;> simp_all

theorem reduceRounds_xor (n : Nat) (x y : Word) :
    reduceRounds n (x ^^^ y) = reduceRounds n x ^^^ reduceRounds n y := by
  induction n generalizing x y with
  | zero => rfl
  | succ n ih => simp only [reduceRounds, reduceRound_xor, ih]

/-- Rounds are the iterates of one round. -/
theorem reduceRounds_eq_iterate (n : Nat) (x : Word) : reduceRounds n x = reduceRound^[n] x := by
  induction n generalizing x with
  | zero => rfl
  | succ n ih => rw [reduceRounds, ih, Function.iterate_succ_apply]

/-- The FOLD index is `ACC[7:0] ^ b` (R104). -/
theorem foldIndex_eq (acc : Word) (b : Byte) : foldIndex acc b = acc.setWidth 8 ^^^ b := by
  have h : (acc &&& 0xFF#32).setWidth 8 = acc.setWidth 8 := by
    ext k hk
    interval_cases k <;> simp
  rw [foldIndex, h]

theorem finalise_eq_xor (acc : Word) : finalise acc = acc ^^^ 0xFFFFFFFF#32 :=
  (BitVec.xor_allOnes (x := acc)).symm

end Sys2Proof.Machine
end

