-- ==== Sys2Proof/Laws/Run.lean ====
section
/-! SUPPORT. A run of a machine behind the host's interface, one step at a time. -/

namespace Sys2Proof.Machine

/-- A run goes on from the state its first step leaves. -/
theorem run_next (M : Host.Core) {s t : M.State} (h : M.step s = .next t) (k : Nat) : M.run (k + 1) s = M.run k t := by
  rw [Host.Core.run, h]

/-- A run stops at a fault. -/
theorem run_fault (M : Host.Core) {s : M.State} {f : M.Fault} (h : M.step s = .fault f) (k : Nat) :
    M.run (k + 1) s = .fault f := by
  rw [Host.Core.run, h]

theorem core_run_zero (s : State) : core.run 0 s = .next s := rfl

theorem core_run_next {s t : State} (h : step s = .next t) (k : Nat) : core.run (k + 1) s = core.run k t :=
  run_next core h k

theorem core_run_fault {s : State} {f : Fault} (h : step s = .fault f) (k : Nat) : core.run (k + 1) s = .fault f :=
  run_fault core h k

end Sys2Proof.Machine
end

