-- ==== Sys2Proof/Tests/Slice0.lean ====
section
/-! SUPPORT. The model's own tests: words and results from the spec's vectors (95_test_vectors.md), the checks on
ill-formed terms, and one witness for every statement with hypotheses. -/

namespace Sys2Proof.Tests

open Sys2Proof.Machine

/-- The next state an outcome holds, if it is one. -/
def after (o : Host.Outcome State Fault Refusal) : Option State :=
  match o with
  | .next s => some s
  | .fault _ => none
  | .refused _ => none

/-- The fault an outcome holds, if it is one. -/
def faultOf (o : Host.Outcome State Fault Refusal) : Option Fault :=
  match o with
  | .next _ => none
  | .fault f => some f
  | .refused _ => none

/-- A state with the given registers whose host presents the words `P`. -/
def loaded (acc out : Word) (P : List CmdWord) : State := { State.reset with acc := acc, out := out, program := P }

/-- The registers after the state's next step. -/
def regsAfterStep (s : State) : Option (Word × Word × Nat) := (after (step s)).map fun t => (t.acc, t.out, t.pc)

/-! ### Decoding: words written out bit by bit from the encodings of R62 -/

theorem test_decode_nop : decode 0b0000000000000000#16 = .command .nop := by decide
theorem test_decode_init : decode 0b0000000100000000#16 = .command .init := by decide
theorem test_decode_fold : decode 0b0000001001100001#16 = .command (.fold 0b01100001#8) := by decide
theorem test_decode_final : decode 0b0000001100000000#16 = .command .final := by decide
theorem test_decode_romrd : decode 0b0000010010000000#16 = .command (.romrd 0b10000000#8) := by decide
theorem test_table_word_fold : decodeTableWord 16 0x0261 = some (.fold 0x61#8) := by decide
theorem test_table_word_reserved : decodeTableWord 16 0x0500 = none := by decide

/-! ### WellFormed: an ill-formed word for each check of the opcode map (R63 (a) to (d)), and the assembler's checks -/

theorem test_wf_unused_opcode : isCommandWord 0x0500#16 = false := by decide
theorem test_wf_nop_operand : isCommandWord 0x0001#16 = false := by decide
theorem test_wf_init_operand : isCommandWord 0x0101#16 = false := by decide
theorem test_wf_final_operand : isCommandWord 0x0301#16 = false := by decide
theorem test_wf_command : isCommandWord 0x02FF#16 = true := by decide
theorem test_asm_number : assembleLine (.fold (.number 256)) = .error (.numberOutOfRange 256) := by rfl
theorem test_asm_char : assembleLine (.romrd (.char 0x7F)) = .error (.charOutOfRange 0x7F) := by rfl
theorem test_asm_word : assembleLine (.cmd 0x10000) = .error (.wordOutOfRange 0x10000) := by simp [assembleLine]
theorem test_asm_surrogate : assembleLine (.text [0xD800]) = .error (.notUnicode 0xD800) := by rfl
theorem test_asm_empty : assembleLine (.bytes []) = .error .noBytes := by rfl

/-! ### Commands, one step each (vectors V-N1, V-I1, V-F2, V-F6, V-X4, V-TAB9, V-TAB16) -/

theorem test_step_nop : regsAfterStep (loaded 0x174841BC#32 0x00000000#32 [0x0000#16]) =
    some (0x174841BC#32, 0x00000000#32, 1) := by decide
theorem test_step_init : regsAfterStep (loaded 0x617CB792#32 0x9E83486D#32 [0x0100#16]) =
    some (0xFFFFFFFF#32, 0x9E83486D#32, 1) := by decide
theorem test_step_fold : regsAfterStep (loaded 0x174841BC#32 0x00000005#32 [0x0262#16]) =
    some (0x617CB792#32, 0x00000005#32, 1) := by decide
theorem test_step_fold_shift : regsAfterStep (loaded 0x12345678#32 0x00000000#32 [0x0278#16]) =
    some (0x00123456#32, 0x00000000#32, 1) := by decide
theorem test_step_final : regsAfterStep (loaded 0x12345678#32 0x00000000#32 [0x0300#16]) =
    some (0x12345678#32, 0xEDCBA987#32, 1) := by decide
theorem test_step_romrd : regsAfterStep (loaded 0x617CB792#32 0x00000000#32 [0x0480#16]) =
    some (0x617CB792#32, 0xEDB88320#32, 1) := by decide
theorem test_step_romrd_last : regsAfterStep (loaded 0x617CB792#32 0x00000000#32 [0x04FF#16]) =
    some (0x617CB792#32, 0x2D02EF8D#32, 1) := by decide

/-! ### Reserved words, idle, reset (vectors V-E1, V-E5; R28, R152) -/

theorem test_step_reserved : (after (step (loaded 0x7C231048#32 0x00000000#32 [0x0500#16]))).map
    (fun t => (t.acc, t.pc, t.fault)) = some (0x7C231048#32, 1, some (.illegalCommand 0x0500#16 0)) := by decide
theorem test_step_faulted : faultOf (step { State.reset with
    fault := some (.illegalCommand 0x0301#16 0), pc := 1, program := [0x0301#16, 0x0300#16] }) =
    some (.illegalCommand 0x0301#16 0) := by decide
theorem test_step_idle : regsAfterStep { State.reset with program := [0x0200#16], port := [⟨false, false⟩] } =
    some (0xFFFFFFFF#32, 0x00000000#32, 0) := by decide
theorem test_step_reset : regsAfterStep { loaded 0x12345678#32 0x00000007#32 [0x0200#16] with
    pc := 1, port := [⟨true, true⟩] } = some (0xFFFFFFFF#32, 0x00000000#32, 0) := by decide
theorem test_fetch_word : regsAfterStep (State.reset.withFetchWord 16 0x0261) =
    some (0x174841BC#32, 0x00000000#32, 1) := by decide

/-! ### Messages (vectors V-M5, V-F12), text and assembler (R52, R65, R66, program P2) -/

theorem test_crc32_ba : crc32 [0x62#8, 0x61#8] = 0x2CA74A14#32 := by decide
theorem test_fold_bitwise : foldBitwise 0xFFFFFFFF#32 0x61#8 = 0x174841BC#32 := by decide
theorem test_hex_text : hexText 0x0E048D3E#32 = ['0', 'e', '0', '4', '8', 'd', '3', 'e'] := by decide
theorem test_asm_msg : assembleLine (.msg [0x61, 0x62]) = .ok [0x0100#16, 0x0261#16, 0x0262#16, 0x0300#16] := by rfl
theorem test_asm_utf8 : utf8Bytes [0x20AC] = .ok [0xE2#8, 0x82#8, 0xAC#8] := by rfl
theorem test_asm_text_fold : assembleText
    ['c', 'r', 'c', '.', 'f', 'o', 'l', 'd', ' ', '0', 'x', '6', '1', ' ', '#', ' ', 'a'] = .ok [0x0261#16] := by rfl
theorem test_asm_text_char : assembleText
    ['c', 'r', 'c', '.', 'f', 'o', 'l', 'd', ' ', apostrophe, '#', apostrophe] = .ok [0x0223#16] := by rfl
theorem test_asm_text_bytes : assembleText
    ['c', 'r', 'c', '.', 'b', 'y', 't', 'e', 's', ' ', '0', ',', ' ', '2', '5', '5'] =
    .ok [0x0200#16, 0x02FF#16] := by rfl
theorem test_asm_text_cmd : assembleText ['.', 'c', 'm', 'd', ' ', '0', 'x', '0', '5', '0', '1'] =
    .ok [0x0501#16] := by rfl
theorem test_asm_text_first_refusal : assembleText
    ['c', 'r', 'c', '.', 'f', 'o', 'l', 'd', ' ', '2', '5', '6', Char.ofNat 10, 'c', 'r', 'c', '.', 'x'] =
    .error (.numberOutOfRange 256) := by rfl
theorem test_asm_text_cmd_char : assembleText ['.', 'c', 'm', 'd', ' ', apostrophe, 'a', apostrophe] =
    .error .syntaxError := by rfl
theorem test_asm_text_upper : assembleText ['C', 'R', 'C', '.', 'N', 'O', 'P'] = .error .syntaxError := by rfl

/-! ### Witnesses: the hypotheses of each statement are met -/

theorem witness_TableEntryIsEightReductionRounds : (0xFFFFFFFF#32).toNat % 2 = 1 ∧ (0xFFFFFFFE#32).toNat % 2 = 0 := by
  decide
theorem witness_TableTopBytesArePermutation : romRead 0xFF#8 = romRead 0xFF#8 ∧
    (romRead 0x80#8).extractLsb' 24 8 = (romRead 0x80#8).extractLsb' 24 8 ∧
    foldByte 0x12345678#32 0x78#8 = foldByte 0x12345678#32 0x78#8 := by decide
theorem witness_RomrdWritesTableEntryToOut : 0x0400#16 &&& 0xFF00#16 = 0x0400#16 ∧ 0x04FF#16 &&& 0xFF00#16 = 0x0400#16 := by
  decide
theorem witness_NopOnlyAdvancesPc : 0x0001 ≤ (0x0001#16).toNat ∧ (0x0001#16).toNat ≤ 0x00FF ∧
    0x0001 ≤ (0x00FF#16).toNat ∧ (0x00FF#16).toNat ≤ 0x00FF := by decide
theorem witness_FoldWritesShiftedAccXorTableEntry : 0x0200#16 &&& 0xFF00#16 = 0x0200#16 ∧
    0x02FF#16 &&& 0xFF00#16 = 0x0200#16 ∧ (loaded 0#32 0#32 []).acc = 0#32 ∧ State.reset.acc = 0xFFFFFFFF#32 := by decide
theorem witness_FinalWritesComplementToOut : (loaded 0x617CB792#32 0#32 []).acc = 0x617CB792#32 := by decide
theorem witness_CommandFrame_acc : ∃ t, exec .init (loaded 0#32 0#32 []) = .next t ∧
    t.acc ≠ (loaded 0#32 0#32 []).acc := ⟨_, rfl, by decide⟩
theorem witness_CommandFrame_out : ∃ t, exec .final (loaded 0#32 0#32 []) = .next t ∧
    t.out ≠ (loaded 0#32 0#32 []).out := ⟨_, rfl, by decide⟩
theorem witness_CommandWordIsItsEncoding : decode 0x02FF#16 = .command (.fold 0xFF#8) := by decide
theorem witness_DecoderFollowsOpcodeMap_match : ∀ r ∈ opcodeMap, r.pattern &&& r.mask = r.pattern := by decide
theorem witness_DecoderFollowsOpcodeMap_reserved : ∀ r ∈ opcodeMap, 0x0500#16 &&& r.mask ≠ r.pattern := by decide
theorem witness_DecoderFollowsOpcodeMap_words : 0x0261#16 &&& 0xFF00#16 = 0x0200#16 ∧ 0x0480#16 &&& 0xFF00#16 = 0x0400#16 := by
  decide
theorem witness_DecoderIsTotalByRule : (0x04 : Nat) = (0x04FF#16).toNat / 256 ∧ 0xFF = (0x04FF#16).toNat % 256 := by decide
theorem witness_ReservedWordsByClass : decode 0x0500#16 = .reserved .unusedOpcode 0x0500#16 ∧
    decode 0xFFFF#16 = .reserved .unusedOpcode 0xFFFF#16 ∧ decode 0x00FF#16 = .reserved .nopOperand 0x00FF#16 ∧
    decode 0x01FF#16 = .reserved .initOperand 0x01FF#16 ∧ decode 0x03FF#16 = .reserved .finalOperand 0x03FF#16 := by decide
theorem witness_StepRunsDecodedInstruction : (loaded 5#32 0#32 [0x02FF#16]).fault = none ∧
    currentDrive (loaded 5#32 0#32 [0x02FF#16]) = ⟨false, true⟩ ∧
    (loaded 5#32 0#32 [0x02FF#16]).program[(loaded 5#32 0#32 [0x02FF#16]).pc]? = some 0x02FF#16 ∧
    decode 0x02FF#16 = .command (.fold 0xFF#8) ∧ (Instr.fold 0xFF#8).wf = true := by decide
theorem witness_EveryWordAdvancesPcByOne : decode 0x8000#16 = .reserved .unusedOpcode 0x8000#16 := by decide
theorem witness_ReservedWordRecordsFaultAndStops : decode 0x0301#16 = .reserved .finalOperand 0x0301#16 ∧
    (loaded 5#32 0#32 [0x0301#16]).fault = none ∧
    currentPins (loaded 5#32 0#32 [0x0301#16]) = ⟨false, some 0x0301#16⟩ ∧
    (currentDrive { loaded 5#32 0#32 [0x0301#16] with
      fault := some (.illegalCommand 0x0301#16 0), pc := 1 }).rst = false := by decide
theorem witness_FaultRecordIsSticky_stays : let s := { State.reset with fault := some (.illegalCommand 0x0500#16 0) }
    s.fault = some (.illegalCommand 0x0500#16 0) ∧ (currentDrive s).rst = false := by decide
theorem witness_FaultRecordIsSticky_reset : let s := { State.reset with
      fault := some (.illegalCommand 0x0500#16 0), port := [⟨true, false⟩] }
    s.fault = some (.illegalCommand 0x0500#16 0) ∧ (currentDrive s).rst = true := by decide
theorem witness_IdleStepChangesNothing : let s := { State.reset with port := [⟨false, false⟩], program := [0x0200#16] }
    s.fault = none ∧ currentDrive s = ⟨false, false⟩ := by decide
theorem witness_FinishedProgramIdles : let s := { State.reset with pc := 1, program := [0x0200#16] }
    s.fault = none ∧ s.program.length ≤ s.pc ∧ (currentDrive s).rst = false := by decide
theorem witness_ResetWinsOverCommand : (currentDrive { State.reset with port := [⟨true, true⟩] }).rst = true := by decide
theorem witness_ResetState : (blockReset ⟨[loaded 5#32 6#32 [0x0200#16]]⟩).engines[0]? =
    some { State.reset with program := [0x0200#16] } := by decide
theorem witness_ResetState_block : State.reset ∈ Block.reset.engines := by simp [Block.reset, Config.nEngines]
theorem witness_PlacedWordRunsNext : decodeTableWord 16 0x04FF = some (.romrd 0xFF#8) ∧ 0x04FF < 2 ^ 16 := by decide
theorem witness_StartState : StartState (loaded 5#32 6#32 [0x0100#16]) := ⟨rfl, rfl, rfl⟩
theorem witness_StepKeepsRunInv : ∃ t, RunInv (loaded 5#32 6#32 [0x0500#16]) ∧
    step (loaded 5#32 6#32 [0x0500#16]) = .next t := ⟨_, ⟨by decide, trivial⟩, rfl⟩
theorem witness_StepKeepsRunInv_faulted : RunInv { loaded 5#32 6#32 [0x0500#16] with
    fault := some (.illegalCommand 0x0500#16 0), pc := 1 } := ⟨by decide, by refine ⟨?_, ?_, ?_⟩ <;> decide⟩
theorem witness_RunPerformsCommandsInOrder : StartState (loaded 5#32 6#32 [0x0100#16, 0x0261#16, 0x0300#16]) ∧
    (loaded 5#32 6#32 [0x0100#16, 0x0261#16, 0x0300#16]).program =
      [Instr.init, Instr.fold 0x61#8, Instr.final].map encode := ⟨⟨rfl, rfl, rfl⟩, by decide⟩
theorem witness_ModelStepAgreesWithHardware : ∃ t, step (loaded 5#32 6#32 [0x0261#16]) = .next t := ⟨_, rfl⟩
theorem witness_OutIsReadByNoCommand : (∃ t, step (loaded 5#32 6#32 [0x0300#16]) = .next t) ∧
    ∃ f, step { State.reset with fault := some (.illegalCommand 0x0500#16 0) } = .fault f := ⟨⟨_, rfl⟩, ⟨_, rfl⟩⟩
theorem witness_AccIsSeenThroughFinalAlone : ∃ t t' u, Instr.romrd 0x80#8 ≠ .final ∧
    exec (.romrd 0x80#8) State.reset = .next t ∧ exec (.romrd 0x80#8) { State.reset with acc := 7#32 } = .next t' ∧
    exec .final State.reset = .next u := ⟨_, _, _, by decide, rfl, rfl, rfl⟩
theorem witness_RegistersDecideTheResult : (loaded 5#32 6#32 []).acc = (loaded 5#32 6#32 [0x0100#16]).acc ∧
    (loaded 5#32 6#32 []).out = (loaded 5#32 6#32 [0x0100#16]).out ∧
    (loaded 5#32 6#32 []).fault = (loaded 5#32 6#32 [0x0100#16]).fault := by decide
theorem witness_MessageLeavesItsChecksum : [Instr.nop, Instr.fold 0x61#8, Instr.romrd 0x80#8].all insideMessage = true ∧
    State.reset.acc = State.reset.acc := by decide
theorem witness_OneByteChangesTheChecksum : 0x61#8 ≠ 0x60#8 := by decide
theorem witness_ByteOrderMatters : 0x61#8 ≠ 0x62#8 := by decide
theorem witness_EnginesAreIndependent : (0 : Nat) ≠ 1 ∧
    (⟨[State.reset, loaded 5#32 6#32 []]⟩ : Block).engines[0]? = (⟨[State.reset]⟩ : Block).engines[0]? := by decide
theorem witness_EngineInterleavingIsIrrelevant : [0, 1].Perm [1, 0] := by decide
theorem witness_HostReadsOutWithoutEffect : (currentDrive State.reset).rst = false := by decide
theorem witness_AssemblerLinesAsListed : (255 : Nat) ≤ 255 ∧ 0x20 ≤ 0x7E ∧ 255 < 256 ∧ (0x1F < 0x20 ∨ 0x7E < 0x1F) ∧
    (0x7F < 0x20 ∨ 0x7E < 0x7F) := by decide
theorem witness_PseudoInstructionsExpand : [AsmOperand.number 0, AsmOperand.char 0x61] ≠ [] ∧
    utf8Bytes [0xE9] = .ok [0xC3#8, 0xA9#8] := ⟨by decide, rfl⟩
theorem witness_CodePointsAreOneToFourBytesNoTwoAlike : 0x7F < 0x80 ∧ isScalar 0x80 = true ∧ isScalar 0x10FFFF = true ∧
    isScalar 0xD800 = false ∧ isScalar 0x110000 = false := by decide
theorem witness_CodePointsAreOneToFourBytesNoTwoAlike_same : utf8Char 0xE9 = .ok [0xC3#8, 0xA9#8] := by rfl
theorem witness_Utf8BytesByLeadAndContinuation : isScalar 0x800 = true ∧ isScalar 0xFFFF = true ∧
    0x80 ≤ 0x7FF ∧ 0x7FF < 0x800 ∧ 0xFFFF < 0x10000 ∧ isScalar 0x10000 = true ∧ isScalar 0x10FFFF = true := by decide
theorem witness_Utf8BytesByLeadAndContinuation_join : utf8Char 0x20AC = .ok [0xE2#8, 0x82#8, 0xAC#8] ∧
    utf8Bytes [0x61] = .ok [0x61#8] := ⟨rfl, rfl⟩
theorem witness_Utf8BytesByLeadAndContinuation_refused : utf8Bytes [0x61, 0xDFFF] = .error (.notUnicode 0xDFFF) := by rfl
theorem witness_AssembledLinesAreCommands : assembleLine (.msg []) = .ok [0x0100#16, 0x0300#16] ∧
    ∀ n, AsmLine.msg [] ≠ .cmd n := ⟨rfl, fun _ h => AsmLine.noConfusion h⟩
theorem witness_AssembledMessageRunsToItsChecksum : utf8Bytes [0x61] = .ok [0x61#8] ∧
    StartState (loaded 5#32 6#32 [0x0100#16, 0x0261#16, 0x0300#16]) ∧
    assembleLine (.msg [0x61]) = .ok (loaded 5#32 6#32 [0x0100#16, 0x0261#16, 0x0300#16]).program :=
  ⟨rfl, ⟨rfl, rfl, rfl⟩, rfl⟩

end Sys2Proof.Tests
end

section
/-! SUPPORT. The decoder beside the encoder (R62, R65) and beside the opcode map (R62, R63). -/

namespace Sys2Proof

/-- A word is decided by its two bytes (R60). -/
theorem word_eq_iff_fields (w : CmdWord) {op imm : Nat} (hop : op < 256) (himm : imm < 256) :
    w = BitVec.ofNat 16 (256 * op + imm) ↔ opField w = BitVec.ofNat 8 op ∧ immField w = BitVec.ofNat 8 imm := by
  have hw := word_toNat_fields w
  have := (immField w).isLt
  rw [byte_eq_iff _ _ hop, byte_eq_iff _ _ himm, ← BitVec.toNat_inj, BitVec.toNat_ofNat]
  omega

/-- The mask of FOLD's and ROMRD's rows compares the opcode byte alone (R62). -/
theorem high_mask_eq_iff_opField (w : CmdWord) {op : Nat} (hop : op < 256) :
    w &&& 0xFF00#16 = BitVec.ofNat 16 (256 * op) ↔ opField w = BitVec.ofNat 8 op := by
  rw [byte_eq_iff _ _ hop, opField_toNat, ← BitVec.toNat_inj, high_mask_toNat, BitVec.toNat_ofNat]
  omega

theorem opField_encode_fold (b : Byte) : opField (encode (.fold b)) = 0x02#8 := by
  have := b.isLt
  rw [byte_eq_iff _ _ (by decide), opField_toNat, encode_fold_toNat]
  omega

theorem immField_encode_fold (b : Byte) : immField (encode (.fold b)) = b := by
  have := b.isLt
  rw [← BitVec.toNat_inj, immField_toNat, encode_fold_toNat]
  omega

theorem opField_encode_romrd (i : Byte) : opField (encode (.romrd i)) = 0x04#8 := by
  have := i.isLt
  rw [byte_eq_iff _ _ (by decide), opField_toNat, encode_romrd_toNat]
  omega

theorem immField_encode_romrd (i : Byte) : immField (encode (.romrd i)) = i := by
  have := i.isLt
  rw [← BitVec.toNat_inj, immField_toNat, encode_romrd_toNat]
  omega

/-- The decoder reads back what the encoder wrote. -/
@[simp] theorem decode_encode (i : Instr) : decode (encode i) = .command i := by
  cases i with
  | nop => decide
  | init => decide
  | fold b => simp [decode, opField_encode_fold, immField_encode_fold]
  | final => decide
  | romrd i => simp [decode, opField_encode_romrd, immField_encode_romrd]

/-- The five rows of the opcode map, by the bytes they compare (R62). -/
theorem isCommandWord_iff_fields (w : CmdWord) : isCommandWord w = true ↔
    (opField w = 0x00#8 ∧ immField w = 0x00#8) ∨ (opField w = 0x01#8 ∧ immField w = 0x00#8) ∨
    opField w = 0x02#8 ∨ (opField w = 0x03#8 ∧ immField w = 0x00#8) ∨ opField w = 0x04#8 := by
  rw [← word_eq_iff_fields w (op := 0) (imm := 0) (by decide) (by decide),
    ← word_eq_iff_fields w (op := 1) (imm := 0) (by decide) (by decide),
    ← high_mask_eq_iff_opField w (op := 2) (by decide),
    ← word_eq_iff_fields w (op := 3) (imm := 0) (by decide) (by decide),
    ← high_mask_eq_iff_opField w (op := 4) (by decide)]
  simp [isCommandWord, opcodeMap, OpcodeRow.accepts, full_mask]

/-- The opcode map's command words are exactly the words the decoder does not reserve (R62, R67). -/
theorem isCommandWord_eq_isSome (w : CmdWord) : isCommandWord w = (decode w).instr?.isSome := by
  rw [Bool.eq_iff_iff, isCommandWord_iff_fields, decode]
  split_ifs <;> simp_all [Decoded.instr?]

theorem isCommandWord_of_reserved {w v : CmdWord} {c : ReservedClass} (h : decode w = .reserved c v) :
    isCommandWord w = false := by
  rw [isCommandWord_eq_isSome, h]
  rfl

end Sys2Proof
end

section
/-! SUPPORT. What each command does, by way of the registers: a command is `hardwareCommand` on them, `pc` one more, and
the rest of the state kept. -/

namespace Sys2Proof.Machine

/-- The state with the hardware's registers replaced, the bookkeeping and the inputs kept. -/
def setRegisters (r : Registers) (s : State) : State := { s with acc := r.acc, out := r.out }

@[simp] theorem setRegisters_acc (r : Registers) (s : State) : (setRegisters r s).acc = r.acc := rfl
@[simp] theorem setRegisters_out (r : Registers) (s : State) : (setRegisters r s).out = r.out := rfl
@[simp] theorem setRegisters_pc (r : Registers) (s : State) : (setRegisters r s).pc = s.pc := rfl
@[simp] theorem setRegisters_fault (r : Registers) (s : State) : (setRegisters r s).fault = s.fault := rfl
@[simp] theorem setRegisters_program (r : Registers) (s : State) : (setRegisters r s).program = s.program := rfl
@[simp] theorem setRegisters_port (r : Registers) (s : State) : (setRegisters r s).port = s.port := rfl

@[simp] theorem registersOf_setRegisters (r : Registers) (s : State) : registersOf (setRegisters r s) = r := rfl
@[simp] theorem registersOf_advancePc (s : State) : registersOf (advancePc s) = registersOf s := rfl
@[simp] theorem registersOf_consumeDrive (s : State) : registersOf (consumeDrive s) = registersOf s := rfl
@[simp] theorem registersOf_takeIllegalCommand (w : CmdWord) (s : State) :
    registersOf (takeIllegalCommand w s) = registersOf s := rfl
@[simp] theorem registersOf_applyReset (s : State) :
    registersOf (applyReset s) = ⟨0xFFFFFFFF#32, 0x00000000#32⟩ := rfl

/-- Every command answers a next state: its effect on the registers, and `pc` one more (R101, R130). -/
theorem exec_eq_next (i : Instr) (s : State) :
    exec i s = .next (advancePc (setRegisters (hardwareCommand i (registersOf s)) s)) := by
  cases i <;> rfl

theorem exec_next_iff {i : Instr} {s t : State} :
    exec i s = .next t ↔ t = advancePc (setRegisters (hardwareCommand i (registersOf s)) s) := by
  rw [exec_eq_next]
  exact ⟨fun h => (Host.Outcome.next.inj h).symm, fun h => h ▸ rfl⟩

/-- The bookkeeping and the inputs after a command (R25, R30). -/
theorem exec_frame {i : Instr} {s t : State} (h : exec i s = .next t) :
    t.pc = s.pc + 1 ∧ t.fault = s.fault ∧ t.program = s.program ∧ t.port = s.port := by
  obtain rfl := exec_next_iff.mp h
  exact ⟨rfl, rfl, rfl, rfl⟩

theorem exec_registers {i : Instr} {s t : State} (h : exec i s = .next t) :
    registersOf t = hardwareCommand i (registersOf s) := by
  obtain rfl := exec_next_iff.mp h
  rfl

/-- `ACC` is written by INIT and FOLD alone (R20, R21). -/
theorem hardwareCommand_acc_changed {i : Instr} {r : Registers} (h : (hardwareCommand i r).acc ≠ r.acc) :
    i = .init ∨ ∃ b, i = .fold b := by
  cases i with
  | nop => exact absurd rfl h
  | init => exact .inl rfl
  | fold b => exact .inr ⟨b, rfl⟩
  | final => exact absurd rfl h
  | romrd k => exact absurd rfl h

/-- `OUT` is written by FINAL and ROMRD alone (R20, R22). -/
theorem hardwareCommand_out_changed {i : Instr} {r : Registers} (h : (hardwareCommand i r).out ≠ r.out) :
    i = .final ∨ ∃ k, i = .romrd k := by
  cases i with
  | nop => exact absurd rfl h
  | init => exact absurd rfl h
  | fold b => exact absurd rfl h
  | final => exact .inl rfl
  | romrd k => exact .inr ⟨k, rfl⟩

/-- No command but FINAL carries `ACC` into `OUT` (R21). -/
theorem hardwareCommand_out_acc_irrelevant {i : Instr} (hi : i ≠ .final) (a : Word) (r : Registers) :
    (hardwareCommand i { r with acc := a }).out = (hardwareCommand i r).out := by
  cases i with
  | nop => rfl
  | init => rfl
  | fold b => rfl
  | final => exact absurd rfl hi
  | romrd k => rfl

end Sys2Proof.Machine
end

section
/-! SUPPORT. The step by the port's signals, one equation for each of its four branches (R28, R101, R131, R152). -/

namespace Sys2Proof.Machine

@[simp] theorem currentPins_rst (s : State) : (currentPins s).rst = (currentDrive s).rst := rfl

theorem step_of_reset {s : State} (hr : (currentDrive s).rst = true) :
    step s = .next (applyReset (consumeDrive s)) := by
  simp [step, portStep, hr]

theorem step_of_fault {s : State} {f : Fault} (hr : (currentDrive s).rst = false) (hf : s.fault = some f) :
    step s = .fault f := by
  simp [step, portStep, hr, hf]

theorem step_of_idle {s : State} (hr : (currentDrive s).rst = false) (hf : s.fault = none)
    (hc : (currentPins s).cmd = none) : step s = .next (consumeDrive s) := by
  simp [step, portStep, hr, hf, hc]

theorem step_of_word {s : State} {w : CmdWord} (hr : (currentDrive s).rst = false) (hf : s.fault = none)
    (hc : (currentPins s).cmd = some w) : step s = performWord w (consumeDrive s) := by
  simp [step, portStep, hr, hf, hc]

/-- A fault is answered for the record it was found in, in a step without a reset (R131, R152). -/
theorem step_fault_iff {s : State} {f : Fault} :
    step s = .fault f ↔ (currentDrive s).rst = false ∧ s.fault = some f := by
  refine ⟨fun h => ⟨?_, step_fault_recorded h⟩, fun ⟨hr, hf⟩ => step_of_fault hr hf⟩
  rw [← Bool.not_eq_true]
  intro hr
  rw [step_of_reset hr] at h
  cases h

/-- A presented word does to the registers what the hardware does, and a reserved one nothing (R101, R131). -/
theorem performWord_registers {w : CmdWord} {s t : State} (h : performWord w s = .next t) :
    registersOf t = hardwareWord w (registersOf s) := by
  obtain ⟨i, hd, he⟩ | ⟨c, hd, he⟩ := performWord_cases w s
  · rw [hardwareWord_command hd]
    exact exec_registers (he ▸ h)
  · rw [hardwareWord_reserved hd]
    obtain rfl : takeIllegalCommand w s = t := Host.Outcome.next.inj (he.symm.trans h)
    rfl

theorem hardwareStep_of_reset {p : PortInput} (hr : p.rst = true) (r : Registers) :
    hardwareStep p r = ⟨0xFFFFFFFF#32, 0x00000000#32⟩ := by
  simp [hardwareStep, hr]

theorem hardwareStep_of_idle {p : PortInput} (hr : p.rst = false) (hc : p.cmd = none) (r : Registers) :
    hardwareStep p r = r := by
  simp [hardwareStep, hr, hc]

theorem hardwareStep_of_word {p : PortInput} {w : CmdWord} (hr : p.rst = false) (hc : p.cmd = some w)
    (r : Registers) : hardwareStep p r = hardwareWord w r := by
  simp [hardwareStep, hr, hc]

end Sys2Proof.Machine
end

section
/-! The bookkeeping invariant (10_state.md rules R25, R30; 60_exceptions.md rule R131). -/

namespace Sys2Proof.Machine

/-- Without a record there is nothing to be sound. -/
theorem runInv_of_no_fault {s : State} (hpc : s.pc ≤ s.program.length) (hf : s.fault = none) : RunInv s :=
  ⟨hpc, by simp [FaultRecordSound, hf]⟩

theorem runInv_applyReset (s : State) : RunInv (applyReset s) :=
  runInv_of_no_fault (Nat.zero_le _) rfl

/-- A command that stood in the program leaves `pc` within it, and records nothing. -/
theorem runInv_exec {i : Instr} {s t : State} (hpc : s.pc < s.program.length) (hf : s.fault = none)
    (h : exec i s = .next t) : RunInv t := by
  obtain ⟨htpc, htf, htprog, -⟩ := exec_frame h
  exact runInv_of_no_fault (by rw [htpc, htprog]; exact hpc) (htf.trans hf)

/-- The record of a reserved word that stood at `pc` is sound, since `pc` advanced by one. -/
theorem runInv_takeIllegalCommand {w : CmdWord} {s : State} (hw : s.program[s.pc]? = some w)
    (hres : isCommandWord w = false) : RunInv (takeIllegalCommand w s) :=
  ⟨(List.getElem?_eq_some_iff.mp hw).1, rfl, hw, hres⟩

/-- Settles O28: a reset and an idle step keep the invariant, and a presented word stood in the program at `pc`, so it
leaves `pc` in 0..L and, where it is reserved, just behind the word its record names. -/
theorem stepKeepsRunInv : Obligations.StepKeepsRunInv := by
  intro s t hinv hstep
  obtain ⟨-, rfl⟩ | ⟨-, -, -, rfl⟩ | ⟨w, -, hf, -, hw, hperf⟩ := step_next_cases hstep
  · exact runInv_applyReset _
  · exact hinv
  · have hpc : s.pc < s.program.length := (List.getElem?_eq_some_iff.mp hw).1
    obtain ⟨i, -, he⟩ | ⟨c, hd, he⟩ := performWord_cases w (consumeDrive s)
    · exact runInv_exec (s := consumeDrive s) hpc hf (he ▸ hperf)
    · obtain rfl : takeIllegalCommand w (consumeDrive s) = t := Host.Outcome.next.inj (he.symm.trans hperf)
      exact runInv_takeIllegalCommand (s := consumeDrive s) hw (isCommandWord_of_reserved hd)

end Sys2Proof.Machine
end

section
/-! A run over the encodings of commands (10_state.md rule R25, 41_fold_engine.md rule R101). -/

namespace Sys2Proof.Machine

/-- The host has the encodings of `cs` still to present and presents one in every step, and no fault is recorded. -/
def Awaits (cs : List Instr) (s : State) : Prop :=
  s.fault = none ∧ s.port = [] ∧ s.program.drop s.pc = cs.map encode

theorem awaits_of_startState {cs : List Instr} {s : State} (hs : StartState s) (hp : s.program = cs.map encode) :
    Awaits cs s := by
  obtain ⟨hpc, hf, hport⟩ := hs
  exact ⟨hf, hport, by rw [hpc, List.drop_zero, hp]⟩

/-- The next step is the first of the awaited commands. -/
theorem step_of_awaits_cons {i : Instr} {cs : List Instr} {s : State} (h : Awaits (i :: cs) s) :
    step s = exec i s := by
  obtain ⟨hf, hport, hdrop⟩ := h
  have hdrive : currentDrive s = ⟨false, true⟩ := by simp [currentDrive, hport]
  have hword : s.program[s.pc]? = some (encode i) := by
    rw [← List.head?_drop, hdrop, List.map_cons, List.head?_cons]
  have hcmd : (currentPins s).cmd = some (encode i) := by simp [currentPins, nextCommand, hdrive, hword]
  have hdrives : consumeDrive s = s := by
    rw [consumeDrive, hport, List.tail_nil, ← hport]
  rw [step_of_word (by rw [hdrive]) hf hcmd, hdrives, performWord, decode_encode]

/-- After the first command, the rest is awaited. -/
theorem awaits_of_exec {i : Instr} {cs : List Instr} {s t : State} (h : Awaits (i :: cs) s)
    (he : exec i s = .next t) : Awaits cs t := by
  obtain ⟨hf, hport, hdrop⟩ := h
  obtain ⟨htpc, htf, htprog, htport⟩ := exec_frame he
  refine ⟨htf.trans hf, htport.trans hport, ?_⟩
  rw [htpc, htprog, ← List.tail_drop, hdrop, List.map_cons, List.tail_cons]

theorem run_of_awaits {cs : List Instr} {s : State} (h : Awaits cs s) :
    core.run cs.length s = performAll cs s := by
  induction cs generalizing s with
  | nil => rfl
  | cons i cs ih =>
    have he := exec_eq_next i s
    rw [performAll_cons cs he, List.length_cons, core_run_next ((step_of_awaits_cons h).trans he)]
    exact ih (awaits_of_exec h he)

/-- Settles O30, by induction on the commands the host has still to present. -/
theorem runPerformsCommandsInOrder : Obligations.RunPerformsCommandsInOrder := by
  intro cs s hs hp
  exact run_of_awaits (awaits_of_startState hs hp)

end Sys2Proof.Machine
end

section
/-! The model beside the hardware (10_state.md rule R20, 60_exceptions.md rules R131, R134). -/

namespace Sys2Proof.Machine

/-- Settles O31: each branch of a step that answers a next state is the hardware's branch under the same signals. -/
theorem modelStepAgreesWithHardware : Obligations.ModelStepAgreesWithHardware := by
  intro s t hstep
  obtain ⟨hr, rfl⟩ | ⟨hr, -, hc, rfl⟩ | ⟨w, hr, -, hc, -, hperf⟩ := step_next_cases hstep
  · rw [hardwareStep_of_reset hr, registersOf_applyReset]
  · rw [hardwareStep_of_idle hr hc, registersOf_consumeDrive]
  · rw [hardwareStep_of_word hr hc, performWord_registers hperf, registersOf_consumeDrive]

end Sys2Proof.Machine
end

section
/-! The engines of the block (10_state.md rule R31, 60_exceptions.md rule R138). -/

namespace Sys2Proof.Machine

/-- An engine after its turn: its step's next state, or itself where it cannot step (R131). -/
def turnOf (s : State) : State :=
  match step s with
  | .next t => t
  | .fault _ => s
  | .refused _ => s

/-- The block's step is the turn of one engine of the list, in place. -/
theorem blockStep_eq_modify (k : Nat) (b : Block) : blockStep k b = ⟨b.engines.modify k turnOf⟩ := by
  rw [List.modify_eq_set_getElem?, blockStep]
  cases hk : b.engines[k]? with
  | none => rfl
  | some s =>
    have hkeep : b.engines.set k s = b.engines := by
      obtain ⟨hlt, rfl⟩ := List.getElem?_eq_some_iff.mp hk
      exact List.set_getElem_self hlt
    cases hs : step s <;> simp [turnOf, hs, hkeep]

theorem blockStep_getElem?_ne {j k : Nat} (b : Block) (h : j ≠ k) :
    (blockStep k b).engines[j]? = b.engines[j]? := by
  rw [blockStep_eq_modify, List.getElem?_modify_ne _ _ h.symm]

theorem blockStep_getElem?_self (k : Nat) (b : Block) :
    (blockStep k b).engines[k]? = turnOf <$> b.engines[k]? := by
  rw [blockStep_eq_modify, List.getElem?_modify_eq]

/-- Turns of two engines are in different places of the list; two turns of one engine are the same two turns. -/
theorem blockStep_comm (j k : Nat) (b : Block) : blockStep j (blockStep k b) = blockStep k (blockStep j b) := by
  obtain rfl | h := eq_or_ne j k
  · rfl
  · simp only [blockStep_eq_modify, List.modify_modify_ne _ _ _ h]

/-- Settles O43, by induction on the permutation: exchanging two neighbours is `blockStep_comm`. -/
theorem engineInterleavingIsIrrelevant : Obligations.EngineInterleavingIsIrrelevant := by
  intro ks ks' b hperm
  induction hperm generalizing b with
  | nil => rfl
  | cons k _ ih => exact ih (blockStep k b)
  | swap j k ks => rw [blockRun, blockRun, blockRun, blockRun, blockStep_comm]
  | trans _ _ ih ih' => exact (ih b).trans (ih' b)

/-- Settles O42: a step of the block is a turn of one engine in its own place. -/
theorem enginesAreIndependent : Obligations.EnginesAreIndependent := by
  refine ⟨fun j k b h => blockStep_getElem?_ne b h, fun k b b' h => ?_, blockStep_comm⟩
  rw [blockStep_getElem?_self, blockStep_getElem?_self, h]

end Sys2Proof.Machine
end

section
/-! What a presented word keeps (10_state.md rules R20, R25, 41_fold_engine.md rule R101). -/

namespace Sys2Proof.Machine

/-- Settles O19: a command by its frame, a reserved word by the record that is taken. -/
theorem everyWordAdvancesPcByOne : Obligations.EveryWordAdvancesPcByOne := by
  intro w s
  obtain ⟨i, hd, he⟩ | ⟨c, -, he⟩ := performWord_cases w s
  · have hnext := exec_eq_next i s
    obtain ⟨hpc, -, hprog, hport⟩ := exec_frame hnext
    refine ⟨_, he.trans hnext, hpc, hprog, hport, fun c hc => ?_⟩
    cases hd.symm.trans hc
  · exact ⟨_, he, rfl, rfl, rfl, fun _ _ => ⟨rfl, rfl⟩⟩

/-- Settles O11: the bookkeeping by `exec_frame`, the registers by the two that write each of them. -/
theorem commandFrame : Obligations.CommandFrame := by
  intro i s t h
  obtain ⟨hpc, hf, hprog, hport⟩ := exec_frame h
  have hregs := exec_registers h
  have hacc : t.acc = (hardwareCommand i (registersOf s)).acc := congrArg Registers.acc hregs
  have hout : t.out = (hardwareCommand i (registersOf s)).out := congrArg Registers.out hregs
  refine ⟨hpc, hf, hprog, hport, fun hne => ?_, fun hne => ?_⟩
  · exact hardwareCommand_acc_changed (r := registersOf s) (hacc ▸ hne)
  · exact hardwareCommand_out_changed (r := registersOf s) (hout ▸ hne)

end Sys2Proof.Machine
end

section
/-! What flows between the registers (10_state.md rules R21, R22). -/

namespace Sys2Proof.Machine

/-- The outcome `o` of the state `s` with `OUT = v` goes with the next state `t` of `s` itself: they differ in `OUT` at
most, and there only where `OUT` was kept in both. -/
def EndsLike (s : State) (v : Word) (t : State) (o : Host.Outcome State Fault Refusal) : Prop :=
  ∃ v', o = .next { t with out := v' } ∧ ((t.out = s.out ∧ v' = v) ∨ v' = t.out)

theorem endsLike_of_out_kept {s t : State} {v : Word} {o : Host.Outcome State Fault Refusal}
    (ho : o = .next { t with out := v }) (ht : t.out = s.out) : EndsLike s v t o :=
  ⟨v, ho, .inl ⟨ht, rfl⟩⟩

theorem endsLike_of_same_next {s t : State} {v : Word} {o : Host.Outcome State Fault Refusal}
    (ho : o = .next t) : EndsLike s v t o :=
  ⟨t.out, ho, .inr rfl⟩

theorem exec_endsLike {i : Instr} {s t : State} (v : Word) (h : exec i s = .next t) :
    EndsLike s v t (exec i { s with out := v }) := by
  obtain rfl := exec_next_iff.mp h
  cases i with
  | nop => exact endsLike_of_out_kept rfl rfl
  | init => exact endsLike_of_out_kept rfl rfl
  | fold b => exact endsLike_of_out_kept rfl rfl
  | final => exact endsLike_of_same_next rfl
  | romrd k => exact endsLike_of_same_next rfl

theorem performWord_endsLike {w : CmdWord} {s t : State} (v : Word) (h : performWord w s = .next t) :
    EndsLike s v t (performWord w { s with out := v }) := by
  unfold performWord at h ⊢
  cases hd : decode w with
  | command i =>
    simp only [hd] at h ⊢
    exact exec_endsLike v h
  | reserved c u =>
    simp only [hd] at h ⊢
    obtain rfl := Host.Outcome.next.inj h
    exact endsLike_of_out_kept rfl rfl

/-- The port's signals do not depend on `OUT`, so both states take the same branch. -/
theorem step_endsLike {s t : State} (v : Word) (h : step s = .next t) :
    EndsLike s v t (step { s with out := v }) := by
  obtain ⟨hr, rfl⟩ | ⟨hr, hf, hc, rfl⟩ | ⟨w, hr, hf, hc, -, hperf⟩ := step_next_cases h
  · exact endsLike_of_same_next (step_of_reset (s := { s with out := v }) hr)
  · exact endsLike_of_out_kept (step_of_idle (s := { s with out := v }) hr hf hc) rfl
  · rw [step_of_word (s := { s with out := v }) hr hf hc]
    exact performWord_endsLike (s := consumeDrive s) v hperf

/-- Settles O33: a next state by `step_endsLike`, and a fault is answered for the record and the signals alone. -/
theorem outIsReadByNoCommand : Obligations.OutIsReadByNoCommand := by
  refine fun s v => ⟨fun _ h => step_endsLike v h, fun f h => ?_⟩
  obtain ⟨hr, hf⟩ := step_fault_iff.mp h
  exact step_of_fault (s := { s with out := v }) hr hf

/-- Settles O34: the registers after a command are the hardware's, where only FINAL carries `ACC` into `OUT`. -/
theorem accIsSeenThroughFinalAlone : Obligations.AccIsSeenThroughFinalAlone := by
  refine ⟨fun i s t t' a hi h h' => ?_, fun s t h => ?_⟩
  · obtain rfl := exec_next_iff.mp h
    obtain rfl := exec_next_iff.mp h'
    exact hardwareCommand_out_acc_irrelevant hi a (registersOf s)
  · obtain rfl := exec_next_iff.mp h
    exact ⟨rfl, rfl⟩

end Sys2Proof.Machine
end

section
/-! Steps that perform no word, and the host's read (10_state.md rules R22, R28, R30; 70_reset_and_hazards.md rules
R152, R157). -/

namespace Sys2Proof.Machine

/-- Settles O21: a recorded fault is answered, and a reset starts from the state after reset. -/
theorem faultRecordIsSticky : Obligations.FaultRecordIsSticky :=
  fun _ _ hf => ⟨fun hr => step_of_fault hr hf, fun hr => ⟨_, step_of_reset hr, rfl, rfl⟩⟩

/-- Settles O22: with `cmd_valid = 0` the step has no command, in the model and in the hardware. -/
theorem idleStepChangesNothing : Obligations.IdleStepChangesNothing := by
  refine ⟨fun s hf hd => ?_, hardwareStep_of_idle rfl rfl⟩
  have hc : (currentPins s).cmd = none := by simp [currentPins, hd]
  exact step_of_idle (by rw [hd]) hf hc

/-- Settles O23: at `pc = L` or beyond, the program has no word to present. -/
theorem finishedProgramIdles : Obligations.FinishedProgramIdles := by
  intro s hf hpc hr
  have hc : (currentPins s).cmd = none := by simp [currentPins, nextCommand, hpc]
  exact step_of_idle hr hf hc

/-- Settles O44: without a reset the pin shows `OUT`. -/
theorem hostReadsOutWithoutEffect : Obligations.HostReadsOutWithoutEffect := by
  intro s hr
  simp [hostRead, outPin, hr]

end Sys2Proof.Machine
end

section
/-! SUPPORT. The three forms of a fold: the table's (R104), eight rounds of the reduction (R107), and the division taken
one message bit at a time (R43). -/

namespace Sys2Proof.Machine

/-- A round that takes in a whole word is the division step for its bit 0; the other bits move one place down and
still wait. -/
theorem reduceRound_xor_eq_divideBit (a x : Word) :
    reduceRound (a ^^^ x) = divideBit a (x.getLsbD 0) ^^^ (x >>> 1) := by
  rw [reduceRound, divideBit, Config.poly, BitVec.getLsbD_xor, BitVec.ushiftRight_xor_distrib]
  split
  · ac_rfl
  · rfl

/-- Rounds on a word's bits, all XORed in at the start, are as many division steps, each with the next bit. -/
theorem reduceRounds_xor_eq_foldl_divideBit (x : Word) (n k : Nat) (a : Word) :
    reduceRounds n (a ^^^ (x >>> k)) =
      (List.range' k n).foldl (fun a j => divideBit a (x.getLsbD j)) a ^^^ (x >>> (k + n)) := by
  induction n generalizing k a with
  | zero => rfl
  | succ n ih =>
    have hbit : (x >>> k).getLsbD 0 = x.getLsbD k := by simp
    rw [reduceRounds, reduceRound_xor_eq_divideBit, hbit, ← BitVec.shiftRight_add, ih, List.range'_succ,
      List.foldl_cons, Nat.add_right_comm k 1 n, Nat.add_assoc k n 1]

/-- R43's order of the bits gives R107's rounds: nothing of the byte is left after eight. -/
theorem foldBitSerial_eq_foldBitwise (acc : Word) (b : Byte) : foldBitSerial acc b = foldBitwise acc b := by
  have hdone : b.setWidth 32 >>> 8 = 0#32 := by ext j; simp
  have h := reduceRounds_xor_eq_foldl_divideBit (b.setWidth 32) 8 0 acc
  rw [Nat.zero_add, hdone, BitVec.xor_zero, BitVec.ushiftRight_zero] at h
  rw [foldBitwise, h, foldBitSerial]
  simp [List.range']

/-- While the bits that reach `rem[0]` are zero, a round is a shift. -/
theorem reduceRounds_eq_ushiftRight (n : Nat) (x : Word) (h : ∀ k < n, x.getLsbD k = false) :
    reduceRounds n x = x >>> n := by
  induction n generalizing x with
  | zero => rfl
  | succ n ih =>
    have hround : reduceRound x = x >>> 1 := by
      rw [reduceRound, h 0 n.succ_pos, if_neg Bool.false_ne_true]
    have hlow : ∀ k < n, (x >>> 1).getLsbD k = false := fun k hk => by
      rw [BitVec.getLsbD_ushiftRight, h _ (by omega)]
    rw [reduceRounds, hround, ih _ hlow, ← BitVec.shiftRight_add, Nat.add_comm]

/-- The accumulator with the byte in its low bits is its upper 24 bits, and the index FOLD computes. -/
theorem xor_byte_eq_upper_xor_foldIndex (acc : Word) (b : Byte) :
    acc ^^^ b.setWidth 32 = (acc >>> 8 <<< 8) ^^^ (foldIndex acc b).setWidth 32 := by
  rw [foldIndex_eq]
  refine BitVec.eq_of_getLsbD_eq fun j hj => ?_
  by_cases h : j < 8
  · simp [h, hj]
  · have hb : b.getLsbD j = false := BitVec.getLsbD_of_ge b j (by omega)
    simp [h, hj, hb, Nat.add_sub_of_le (Nat.le_of_not_lt h)]

/-- The table's form of a fold is R107's: the rounds are linear, shift the upper 24 bits down, and reduce the index. -/
theorem foldBitwise_eq_foldByte (acc : Word) (b : Byte) : foldBitwise acc b = foldByte acc b := by
  have hlow : ∀ k < 8, (acc >>> 8 <<< 8).getLsbD k = false := fun k hk => by simp [hk]
  have hup : acc >>> 8 <<< 8 >>> 8 = acc >>> 8 := by
    refine BitVec.eq_of_getLsbD_eq fun j _ => ?_
    simpa using BitVec.lt_of_getLsbD
  rw [foldBitwise, xor_byte_eq_upper_xor_foldIndex, reduceRounds_xor, reduceRounds_eq_ushiftRight 8 _ hlow, hup]
  rfl

/-- Settles O38: FOLD's table form is R107's rounds, and these take the byte's bits in R43's order. -/
theorem foldTakesBitZeroFirst : Obligations.FoldTakesBitZeroFirst := by
  intro b s
  rw [exec_fold, foldBitSerial_eq_foldBitwise, foldBitwise_eq_foldByte]
  rfl

end Sys2Proof.Machine
end

section
/-! The text of a result (20_memory.md rule R52), written by the host and read back by the assembler's number reader. -/

namespace Sys2Proof.Machine

/-- A digit's character stands for the digit. -/
theorem digitValue_hexDigits {d : Nat} (h : d < 16) : digitValue (hexDigits.getD d '0') = some d := by
  interval_cases d <;> decide

theorem digitValue_hexDigitAt (w : Word) (k : Nat) : digitValue (hexDigitAt w k) = some (w.toNat / 16 ^ k % 16) :=
  digitValue_hexDigits (Nat.mod_lt _ (by decide))

theorem hexDigitAt_mem_hexDigits (w : Word) (k : Nat) : hexDigitAt w k ∈ hexDigits := by
  have h : w.toNat / 16 ^ k % 16 < hexDigits.length := Nat.mod_lt _ (by decide)
  rw [hexDigitAt, List.getD_eq_getElem _ _ h]
  exact List.getElem_mem h

/-- A digit is appended to the value read so far. -/
theorem readDigits_hexDigitAt_cons (w : Word) (k : Nat) (cs : List Char) (m : Nat) (seen : Bool) :
    readDigits 16 (hexDigitAt w k :: cs) m seen = readDigits 16 cs (m * 16 + w.toNat / 16 ^ k % 16) true := by
  have h : w.toNat / 16 ^ k % 16 < 16 := Nat.mod_lt _ (by decide)
  simp [readDigits, digitValue_hexDigitAt, h]

/-- The low `n` digits, the most significant first, are appended to the value read so far. -/
theorem readDigits_low_hexDigits (w : Word) (n m : Nat) :
    readDigits 16 ((List.range n).reverse.map (hexDigitAt w)) m true =
      some (m * 16 ^ n + w.toNat % 16 ^ n, []) := by
  induction n generalizing m with
  | zero => simp [readDigits, Nat.mod_one]
  | succ n ih =>
    rw [List.range_succ, List.reverse_concat, List.map_cons, readDigits_hexDigitAt_cons, ih, Nat.mod_pow_succ]
    congr 2
    ring

/-- The text reads back as the value: no higher digit is lost, as the value is below `16 ^ 8`. -/
theorem readDigits_hexText (w : Word) : readDigits 16 (hexText w) 0 false = some (w.toNat, []) := by
  have hw : w.toNat < 16 ^ 8 := w.isLt
  have hsplit : hexText w = hexDigitAt w 7 :: (List.range 7).reverse.map (hexDigitAt w) := rfl
  rw [hsplit, readDigits_hexDigitAt_cons, readDigits_low_hexDigits]
  congr 2
  omega

/-- Settles O45: every character is a digit's, and both forms read back as the value. -/
theorem hexTextIsCanonical : Obligations.HexTextIsCanonical := by
  refine ⟨fun w => ⟨rfl, fun c hc => ?_, readDigits_hexText w, readDigits_hexText w⟩, by decide⟩
  obtain ⟨k, -, rfl⟩ := List.mem_map.mp hc
  exact hexDigitAt_mem_hexDigits w k

end Sys2Proof.Machine
end

section
/-! The decoder as the encoder's inverse (30_encoding.md rules R62, R65, R67). -/

namespace Sys2Proof

/-- R61: no operand is refused. -/
theorem instr_wf (i : Instr) : i.wf = true := by
  cases i <;> rfl

/-- A word given to the decoder as a number is the word. -/
theorem decodeTableWord_toNat (w : CmdWord) : decodeTableWord 16 w.toNat = (decode w).instr? := by
  have hw : w.toNat < 2 ^ 16 := w.isLt
  rw [decodeTableWord, Nat.mod_eq_of_lt hw, if_pos hw, BitVec.ofNat_toNat, BitVec.setWidth_eq]

theorem encode_fold_immField {w : CmdWord} (hop : opField w = 0x02#8) : encode (.fold (immField w)) = w := by
  rw [← BitVec.toNat_inj, encode_fold_toNat, word_toNat_fields w, hop]
  rfl

theorem encode_romrd_immField {w : CmdWord} (hop : opField w = 0x04#8) : encode (.romrd (immField w)) = w := by
  rw [← BitVec.toNat_inj, encode_romrd_toNat, word_toNat_fields w, hop]
  rfl

/-- The branches of the decoder that answer a command: the fields each requires are those of the command's word. -/
theorem encode_of_decode {w : CmdWord} {i : Instr} (h : decode w = .command i) : encode i = w := by
  unfold decode at h
  split_ifs at h with hnop himm hinit himm hfold hfinal himm hromrd <;> obtain rfl := Decoded.command.inj h
  · exact ((word_eq_iff_fields w (op := 0) (imm := 0) (by decide) (by decide)).mpr ⟨hnop, himm⟩).symm
  · exact ((word_eq_iff_fields w (op := 1) (imm := 0) (by decide) (by decide)).mpr ⟨hinit, himm⟩).symm
  · exact encode_fold_immField hfold
  · exact ((word_eq_iff_fields w (op := 3) (imm := 0) (by decide) (by decide)).mpr ⟨hfinal, himm⟩).symm
  · exact encode_romrd_immField hromrd

/-- A word the map has a row for is the encoding of a command. -/
theorem exists_encode_of_isCommandWord {w : CmdWord} (h : isCommandWord w = true) : ∃ i, encode i = w := by
  rw [isCommandWord_eq_isSome] at h
  cases hd : decode w with
  | command i => exact ⟨i, encode_of_decode hd⟩
  | reserved c v => simp [hd, Decoded.instr?] at h

theorem decode_reserved_of_not_isCommandWord {w : CmdWord} (h : isCommandWord w = false) :
    ∃ c, decode w = .reserved c w := by
  rw [isCommandWord_eq_isSome] at h
  cases hd : decode w with
  | command i => simp [hd, Decoded.instr?] at h
  | reserved c v => exact ⟨c, by rw [Machine.decode_reserved_word hd]⟩

@[simp] theorem isCommandWord_encode (i : Instr) : isCommandWord (encode i) = true := by
  rw [isCommandWord_eq_isSome, decode_encode]
  rfl

/-- Settles O13: the decoder reads back what the encoder wrote, and the table's number is the encoding itself. -/
theorem decodeOfEncodeIsTheInstruction : Obligations.DecodeOfEncodeIsTheInstruction := by
  refine fun i => ⟨instr_wf i, decode_encode i, ?_⟩
  rw [decodeTableWord_toNat, decode_encode]
  rfl

/-- Settles O14, by the branches of the decoder that answer a command. -/
theorem commandWordIsItsEncoding : Obligations.CommandWordIsItsEncoding :=
  fun _ _ h => encode_of_decode h

end Sys2Proof
end

section
/-! The decoder beside the opcode map (30_encoding.md rule R62). -/

namespace Sys2Proof

theorem immField_eq_setWidth (w : CmdWord) : immField w = w.setWidth 8 := by
  rw [← BitVec.toNat_inj, immField_toNat, BitVec.toNat_setWidth]

/-- Every mask of the map keeps the opcode byte. -/
theorem opcodeMap_masks_keep_opcode : ∀ r ∈ opcodeMap, r.mask &&& 0xFF00#16 = 0xFF00#16 := by
  decide

/-- The patterns of different rows differ in the opcode byte. -/
theorem opcodeMap_opcodes_distinct : ∀ q ∈ opcodeMap, ∀ r ∈ opcodeMap,
    q.pattern &&& 0xFF00#16 = r.pattern &&& 0xFF00#16 → q = r := by
  decide

/-- A word's opcode byte is that of the row it matches. -/
theorem opcode_of_accepted {w : CmdWord} {r : OpcodeRow} (hr : r ∈ opcodeMap) (h : w &&& r.mask = r.pattern) :
    w &&& 0xFF00#16 = r.pattern &&& 0xFF00#16 := by
  rw [← h, BitVec.and_assoc, opcodeMap_masks_keep_opcode r hr]

theorem opcodeMap_row_unique {w : CmdWord} {q r : OpcodeRow} (hq : q ∈ opcodeMap) (hr : r ∈ opcodeMap)
    (hwq : w &&& q.mask = q.pattern) (hwr : w &&& r.mask = r.pattern) : q = r :=
  opcodeMap_opcodes_distinct q hq r hr ((opcode_of_accepted hq hwq).symm.trans (opcode_of_accepted hr hwr))

theorem isCommandWord_iff_row (w : CmdWord) :
    isCommandWord w = true ↔ ∃ r ∈ opcodeMap, w &&& r.mask = r.pattern := by
  simp [isCommandWord, OpcodeRow.accepts]

/-- The word of every command matches the row of its mnemonic. -/
theorem encode_row (i : Instr) :
    ∃ r ∈ opcodeMap, r.mnemonic = i.mnemonic ∧ encode i &&& r.mask = r.pattern := by
  have hstmt : Laws.Encoding.Statement i := by
    cases i with
    | nop => exact Laws.Encoding.nop
    | init => exact Laws.Encoding.init
    | fold b => exact Laws.Encoding.fold b
    | final => exact Laws.Encoding.final
    | romrd k => exact Laws.Encoding.romrd k
  obtain ⟨-, r, hr, hname, hacc⟩ := hstmt
  exact ⟨r, hr, hname, beq_iff_eq.mp hacc⟩

/-- A matched row is the row of the command that the word encodes, since the word matches no other. -/
theorem decode_of_row {w : CmdWord} {r : OpcodeRow} (hr : r ∈ opcodeMap) (h : w &&& r.mask = r.pattern) :
    ∃ i, decode w = .command i ∧ i.mnemonic = r.mnemonic := by
  obtain ⟨i, rfl⟩ := exists_encode_of_isCommandWord ((isCommandWord_iff_row w).mpr ⟨r, hr, h⟩)
  obtain ⟨q, hq, hname, hacc⟩ := encode_row i
  obtain rfl := opcodeMap_row_unique hq hr hacc h
  exact ⟨i, decode_encode i, hname.symm⟩

theorem decode_of_fold_row {w : CmdWord} (h : w &&& 0xFF00#16 = 0x0200#16) :
    decode w = .command (.fold (w.setWidth 8)) := by
  have hop : opField w = 0x02#8 := (high_mask_eq_iff_opField w (op := 2) (by decide)).mp h
  rw [← immField_eq_setWidth, ← decode_encode, encode_fold_immField hop]

theorem decode_of_romrd_row {w : CmdWord} (h : w &&& 0xFF00#16 = 0x0400#16) :
    decode w = .command (.romrd (w.setWidth 8)) := by
  have hop : opField w = 0x04#8 := (high_mask_eq_iff_opField w (op := 4) (by decide)).mp h
  rw [← immField_eq_setWidth, ← decode_encode, encode_romrd_immField hop]

/-- Settles O15: a matched row names the command, a word without a row is no encoding, and the opcode byte tells the
rows apart. -/
theorem decoderFollowsOpcodeMap : Obligations.DecoderFollowsOpcodeMap := by
  refine ⟨fun w r hr h => decode_of_row hr h, fun w h => ?_, fun w q r hq hr hwq hwr =>
    opcodeMap_row_unique hq hr hwq hwr, fun w h => decode_of_fold_row h, fun w h => decode_of_romrd_row h⟩
  apply decode_reserved_of_not_isCommandWord
  rw [← Bool.not_eq_true, isCommandWord_iff_row]
  rintro ⟨r, hr, hwr⟩
  exact h r hr hwr

end Sys2Proof
end

section
/-! The decoder by the numbers of a word's two bytes (30_encoding.md rules R63, R67). -/

namespace Sys2Proof

theorem opField_eq_iff (w : CmdWord) {n : Nat} (h : n < 256) : opField w = BitVec.ofNat 8 n ↔ w.toNat / 256 = n := by
  rw [byte_eq_iff _ _ h, opField_toNat]

theorem immField_eq_iff (w : CmdWord) {n : Nat} (h : n < 256) : immField w = BitVec.ofNat 8 n ↔ w.toNat % 256 = n := by
  rw [byte_eq_iff _ _ h, immField_toNat]

/-- The decoder's conditions as conditions on the numbers of the two bytes. -/
theorem decode_eq_of_toNat (w : CmdWord) : decode w =
    if w.toNat / 256 = 0 then
      if w.toNat % 256 = 0 then .command .nop else .reserved .nopOperand w
    else if w.toNat / 256 = 1 then
      if w.toNat % 256 = 0 then .command .init else .reserved .initOperand w
    else if w.toNat / 256 = 2 then .command (.fold (immField w))
    else if w.toNat / 256 = 3 then
      if w.toNat % 256 = 0 then .command .final else .reserved .finalOperand w
    else if w.toNat / 256 = 4 then .command (.romrd (immField w))
    else .reserved .unusedOpcode w := by
  rw [decode]
  simp only [opField_eq_iff w (show 0 < 256 by decide), opField_eq_iff w (show 1 < 256 by decide),
    opField_eq_iff w (show 2 < 256 by decide), opField_eq_iff w (show 3 < 256 by decide),
    opField_eq_iff w (show 4 < 256 by decide), immField_eq_iff w (show 0 < 256 by decide)]

/-- Settles O16: R67's lines name the commands first and the decoder asks for the opcode first, which is the same since
an opcode has one line of either kind. -/
theorem decoderIsTotalByRule : Obligations.DecoderIsTotalByRule := by
  rintro w _ _ rfl rfl
  have himm : BitVec.ofNat 8 (w.toNat % 256) = immField w := by
    rw [← immField_toNat, BitVec.ofNat_toNat, BitVec.setWidth_eq]
  rw [himm, decode_eq_of_toNat]
  by_cases hzero : w.toNat % 256 = 0
  · simp only [hzero, and_true, if_true]
    split_ifs <;> rfl
  · simp only [hzero, and_false, if_false]
    split_ifs <;> simp_all

end Sys2Proof
end

section
/-! The classes of reserved words (30_encoding.md rule R63), as ranges of words and as counts. -/

namespace Sys2Proof

/-- The first word of a class's range (R63). -/
def ReservedClass.first : ReservedClass → Nat
  | .unusedOpcode => 0x0500
  | .nopOperand => 0x0001
  | .initOperand => 0x0101
  | .finalOperand => 0x0301

/-- The last word of a class's range (R63). -/
def ReservedClass.last : ReservedClass → Nat
  | .unusedOpcode => 0xFFFF
  | .nopOperand => 0x00FF
  | .initOperand => 0x01FF
  | .finalOperand => 0x03FF

/-- Each reserved branch of the decoder has the opcode and the operand of its class's range. -/
theorem range_of_decode_reserved {w : CmdWord} {c : ReservedClass} (h : decode w = .reserved c w) :
    c.first ≤ w.toNat ∧ w.toNat ≤ c.last := by
  have hw := w.isLt
  rw [decode_eq_of_toNat] at h
  split_ifs at h <;> cases h <;> simp only [ReservedClass.first, ReservedClass.last] <;> omega

/-- A class's range is one opcode with its non-zero operands, or all the opcodes from 5. -/
theorem decode_of_reserved_range {w : CmdWord} {c : ReservedClass} (hlo : c.first ≤ w.toNat)
    (hhi : w.toNat ≤ c.last) : decode w = .reserved c w := by
  rw [decode_eq_of_toNat]
  cases c with
  | unusedOpcode =>
    have hop : 5 ≤ w.toNat / 256 := (Nat.le_div_iff_mul_le (by decide)).mpr hlo
    rw [if_neg (by omega), if_neg (by omega), if_neg (by omega), if_neg (by omega), if_neg (by omega)]
  | nopOperand =>
    obtain ⟨hop, himm⟩ : w.toNat / 256 = 0 ∧ w.toNat % 256 ≠ 0 := by
      simp only [ReservedClass.first, ReservedClass.last] at hlo hhi
      omega
    simp [hop, himm]
  | initOperand =>
    obtain ⟨hop, himm⟩ : w.toNat / 256 = 1 ∧ w.toNat % 256 ≠ 0 := by
      simp only [ReservedClass.first, ReservedClass.last] at hlo hhi
      omega
    simp [hop, himm]
  | finalOperand =>
    obtain ⟨hop, himm⟩ : w.toNat / 256 = 3 ∧ w.toNat % 256 ≠ 0 := by
      simp only [ReservedClass.first, ReservedClass.last] at hlo hhi
      omega
    simp [hop, himm]

theorem decode_eq_reserved_iff (w : CmdWord) (c : ReservedClass) :
    decode w = .reserved c w ↔ c.first ≤ w.toNat ∧ w.toNat ≤ c.last :=
  ⟨range_of_decode_reserved, fun ⟨hlo, hhi⟩ => decode_of_reserved_range hlo hhi⟩

theorem countP_range_eq_card (p : Nat → Bool) (N : Nat) :
    (List.range N).countP p = ((Finset.range N).filter fun n => p n = true).card := by
  rw [List.countP_eq_length_filter]
  change _ = ((List.range N).filter fun n => decide (p n = true)).length
  simp only [Bool.decide_eq_true]

/-- The words of a range are counted by its ends. -/
theorem countWords_of_range {p : CmdWord → Bool} {lo hi : Nat} (hhi : hi < 65536)
    (h : ∀ w, p w = true ↔ lo ≤ w.toNat ∧ w.toNat ≤ hi) : countWords p = hi + 1 - lo := by
  have hset : ((Finset.range 65536).filter fun n => p (BitVec.ofNat 16 n) = true) = Finset.Icc lo hi := by
    ext n
    rw [Finset.mem_filter, Finset.mem_range, Finset.mem_Icc, h, BitVec.toNat_ofNat]
    omega
  rw [countWords, countP_range_eq_card, hset, Nat.card_Icc]

/-- Words with one of two properties that exclude each other are counted one after the other. -/
theorem countWords_or {p q : CmdWord → Bool} (h : ∀ w, p w = true → q w = false) :
    countWords (fun w => p w || q w) = countWords p + countWords q := by
  unfold countWords
  induction List.range 65536 with
  | nil => rfl
  | cons n ns ih =>
    simp only [List.countP_cons, ih]
    cases hp : p (BitVec.ofNat 16 n) with
    | false => simp [Nat.add_assoc]
    | true => simp [h _ hp, Nat.add_right_comm]

/-- The words without a property are the others of the 65,536. -/
theorem countWords_not {p : CmdWord → Bool} {k : Nat} (hp : countWords p = k) :
    countWords (fun w => !p w) = 65536 - k := by
  have h := List.length_eq_countP_add_countP (fun n => p (BitVec.ofNat 16 n)) (l := List.range 65536)
  have hsum : countWords p + countWords (fun w => !p w) = 65536 := by
    simpa [countWords] using h.symm
  omega

/-- How many words a class has (R63). -/
theorem countWords_reserved (c : ReservedClass) :
    countWords (fun w => decode w == .reserved c w) = c.last + 1 - c.first := by
  refine countWords_of_range (by cases c <;> decide) fun w => ?_
  rw [beq_iff_eq, decode_eq_reserved_iff]

/-- Words of different classes are counted one class after the other. -/
theorem countWords_reserved_or {c : ReservedClass} {q : CmdWord → Bool} {k : Nat} (hq : countWords q = k)
    (h : ∀ w, decode w = .reserved c w → q w = false) :
    countWords (fun w => decode w == .reserved c w || q w) = c.last + 1 - c.first + k := by
  rw [countWords_or fun w hw => h w (beq_iff_eq.mp hw), countWords_reserved, hq]

/-- A word without an instruction is in one of the four classes. -/
theorem instr?_eq_none_eq_classes (w : CmdWord) : ((decode w).instr? == none) =
    (decode w == .reserved .unusedOpcode w || (decode w == .reserved .nopOperand w ||
      (decode w == .reserved .initOperand w || decode w == .reserved .finalOperand w))) := by
  cases hd : decode w with
  | command i => rfl
  | reserved c v =>
    obtain rfl := Machine.decode_reserved_word hd
    cases c <;> simp [Decoded.instr?]

theorem countWords_all_reserved : countWords (fun w => (decode w).instr? == none) = 65021 := by
  simp only [instr?_eq_none_eq_classes]
  refine countWords_reserved_or (countWords_reserved_or (countWords_reserved_or (countWords_reserved _) ?_) ?_) ?_
  all_goals
    intro w hw
    simp [hw]

theorem countWords_commands : countWords (fun w => (decode w).instr? != none) = 515 :=
  countWords_not countWords_all_reserved

end Sys2Proof
end

section
/-! What a reserved word does (30_encoding.md rule R63, 60_exceptions.md rule R131). -/

namespace Sys2Proof.Machine

theorem performWord_reserved {w v : CmdWord} {c : ReservedClass} (h : decode w = .reserved c v) (s : State) :
    performWord w s = .next (takeIllegalCommand w s) := by
  obtain rfl := decode_reserved_word h
  simp [performWord, h]

/-- After a reserved word every step without a reset answers its fault, an idle one too. -/
theorem portStep_takeIllegalCommand (w : CmdWord) (s : State) (cmd : Option CmdWord) :
    portStep ⟨false, cmd⟩ (takeIllegalCommand w s) = .fault (.illegalCommand w s.pc) := rfl

/-- Settles O17: a class is one range of words, counted by its ends; the reserved words are the four classes, and the
commands are the other words. -/
theorem reservedWordsByClass : Obligations.ReservedWordsByClass := by
  refine ⟨fun w => ?_, fun w => decode_eq_reserved_iff w .nopOperand, fun w => decode_eq_reserved_iff w .initOperand,
    fun w => decode_eq_reserved_iff w .finalOperand, fun w v c h => ?_, countWords_reserved _, countWords_reserved _,
    countWords_reserved _, countWords_reserved _, countWords_all_reserved, countWords_commands⟩
  · have hlast : w.toNat ≤ 0xFFFF := Nat.le_of_lt_succ w.isLt
    exact (decode_eq_reserved_iff w .unusedOpcode).trans (and_iff_left hlast)
  · exact ⟨decode_reserved_word h, fun r => hardwareWord_reserved h r, fun s =>
      ⟨_, performWord_reserved h s, rfl, portStep_takeIllegalCommand w s⟩⟩

end Sys2Proof.Machine
end

section
/-! SUPPORT. The assembler's parts: operands, words given by a line, and what is emitted as encoded commands
(30_encoding.md rules R65, R66). -/

namespace Sys2Proof.Machine

theorem operandByte_number {n : Nat} (h : n ≤ 255) : operandByte (.number n) = .ok (BitVec.ofNat 8 n) :=
  if_pos h

theorem operandByte_number_refused {n : Nat} (h : 255 < n) :
    operandByte (.number n) = .error (.numberOutOfRange n) :=
  if_neg (Nat.not_le.mpr h)

theorem operandByte_char {c : Nat} (hlo : 0x20 ≤ c) (hhi : c ≤ 0x7E) :
    operandByte (.char c) = .ok (BitVec.ofNat 8 c) :=
  if_pos ⟨hlo, hhi⟩

theorem operandByte_char_refused {c : Nat} (h : c < 0x20 ∨ 0x7E < c) :
    operandByte (.char c) = .error (.charOutOfRange c) :=
  if_neg (by omega)

theorem encode_fold_ofNat {n : Nat} (h : n ≤ 255) : encode (.fold (BitVec.ofNat 8 n)) = BitVec.ofNat 16 (0x0200 + n) := by
  rw [← BitVec.toNat_inj, encode_fold_toNat, BitVec.toNat_ofNat, BitVec.toNat_ofNat]
  omega

theorem encode_romrd_ofNat {n : Nat} (h : n ≤ 255) :
    encode (.romrd (BitVec.ofNat 8 n)) = BitVec.ofNat 16 (0x0400 + n) := by
  rw [← BitVec.toNat_inj, encode_romrd_toNat, BitVec.toNat_ofNat, BitVec.toNat_ofNat]
  omega

@[simp] theorem emitWith_ok {α : Type} (f : α → List CmdWord) (x : α) : emitWith f (.ok x) = .ok (f x) := rfl

@[simp] theorem emitWith_error {α : Type} (f : α → List CmdWord) (e : AsmError) :
    emitWith f (.error e) = .error e := rfl

/-- A line's words come from accepted bytes. -/
theorem emitWith_eq_ok {α : Type} {f : α → List CmdWord} {x : Except AsmError α} {ws : List CmdWord}
    (h : emitWith f x = .ok ws) : ∃ y, x = .ok y ∧ f y = ws := by
  cases x with
  | error e => cases h
  | ok y => exact ⟨y, rfl, Except.ok.inj h⟩

/-- The command sequence of a whole message (R66, R106). -/
def messageCommands (bs : List Byte) : List Instr := .init :: (bs.map .fold ++ [.final])

theorem foldWords_eq_encodings (bs : List Byte) : foldWords bs = (bs.map .fold).map encode := by
  rw [List.map_map]
  rfl

theorem messageWords_eq_encodings (bs : List Byte) : messageWords bs = (messageCommands bs).map encode := by
  rw [messageCommands, List.map_cons, List.map_append, ← foldWords_eq_encodings]
  rfl

end Sys2Proof.Machine
end

section
/-! The assembler's lines (30_encoding.md rules R62, R65, R66). -/

namespace Sys2Proof.Machine

theorem assembleLine_operand_ok {x : AsmOperand} {b : Byte} (h : operandByte x = .ok b) :
    assembleLine (.fold x) = .ok [encode (.fold b)] ∧ assembleLine (.romrd x) = .ok [encode (.romrd b)] := by
  simp [assembleLine, h]

theorem assembleLine_operand_refused {x : AsmOperand} {e : AsmError} (h : operandByte x = .error e) :
    assembleLine (.fold x) = .error e ∧ assembleLine (.romrd x) = .error e := by
  simp [assembleLine, h]

/-- A legal operand, a number or a character, is added to the command's word. -/
theorem assembleLine_operand_word {x : AsmOperand} {n : Nat} (hn : n ≤ 255)
    (h : operandByte x = .ok (BitVec.ofNat 8 n)) :
    assembleLine (.fold x) = .ok [BitVec.ofNat 16 (0x0200 + n)] ∧
    assembleLine (.romrd x) = .ok [BitVec.ofNat 16 (0x0400 + n)] := by
  rw [← encode_fold_ofNat hn, ← encode_romrd_ofNat hn]
  exact assembleLine_operand_ok h

theorem assembleLine_cmd (w : CmdWord) : assembleLine (.cmd w.toNat) = .ok [w] := by
  rw [assembleLine, if_pos w.isLt, BitVec.ofNat_toNat, BitVec.setWidth_eq]

/-- Settles O46: a line with an operand is decided by the operand's byte, a number's and a character's alike. -/
theorem assemblerLinesAsListed : Obligations.AssemblerLinesAsListed := by
  refine ⟨rfl, rfl, rfl, fun n hn => ?_, fun c hlo hhi => ?_, assembleLine_cmd, fun n hn => ?_, fun c hc => ?_⟩
  · exact assembleLine_operand_word hn (operandByte_number hn)
  · exact assembleLine_operand_word (by omega) (operandByte_char hlo hhi)
  · exact assembleLine_operand_refused (operandByte_number_refused hn)
  · exact assembleLine_operand_refused (operandByte_char_refused hc)

/-- What an accepted line other than `.cmd` emits are the encodings of commands. -/
theorem assembleLine_encodings {l : AsmLine} {ws : List CmdWord} (h : assembleLine l = .ok ws)
    (hl : ∀ n, l ≠ .cmd n) : ∃ cs : List Instr, cs.map encode = ws := by
  cases l with
  | nop => exact ⟨[.nop], Except.ok.inj h⟩
  | init => exact ⟨[.init], Except.ok.inj h⟩
  | final => exact ⟨[.final], Except.ok.inj h⟩
  | cmd n => exact absurd rfl (hl n)
  | fold x =>
    obtain ⟨b, -, rfl⟩ := emitWith_eq_ok h
    exact ⟨[.fold b], rfl⟩
  | romrd x =>
    obtain ⟨i, -, rfl⟩ := emitWith_eq_ok h
    exact ⟨[.romrd i], rfl⟩
  | bytes xs =>
    obtain ⟨bs, -, rfl⟩ := emitWith_eq_ok h
    exact ⟨_, (foldWords_eq_encodings bs).symm⟩
  | text s =>
    obtain ⟨bs, -, rfl⟩ := emitWith_eq_ok h
    exact ⟨_, (foldWords_eq_encodings bs).symm⟩
  | msg s =>
    obtain ⟨bs, -, rfl⟩ := emitWith_eq_ok h
    exact ⟨_, (messageWords_eq_encodings bs).symm⟩
  | msgbytes xs =>
    obtain ⟨bs, -, rfl⟩ := emitWith_eq_ok h
    exact ⟨_, (messageWords_eq_encodings bs).symm⟩

/-- Settles O49: every word emitted is a command's encoding. -/
theorem assembledLinesAreCommands : Obligations.AssembledLinesAreCommands := by
  intro l ws h hl w hw
  obtain ⟨cs, rfl⟩ := assembleLine_encodings h hl
  obtain ⟨i, -, rfl⟩ := List.mem_map.mp hw
  exact isCommandWord_encode i

end Sys2Proof.Machine
end

section
/-! A message from text to result (30_encoding.md rule R66, 41_fold_engine.md rules R106, R107). -/

namespace Sys2Proof.Machine

/-- The table's form and the bit-by-bit form of a message's checksum (R107). -/
theorem foldBytes_eq_foldl_foldBitwise (m : List Byte) (acc : Word) : foldBytes m acc = m.foldl foldBitwise acc := by
  induction m generalizing acc with
  | nil => rfl
  | cons b m ih => rw [foldBytes, List.foldl_cons, ih, foldBitwise_eq_foldByte]

theorem crc32_eq_crc32Bitwise (m : List Byte) : crc32 m = crc32Bitwise m := by
  rw [crc32, crc32Bitwise, foldBytes_eq_foldl_foldBitwise]

/-- Folds in order change `ACC` and `pc` alone. -/
theorem performAll_map_fold (m : List Byte) (s : State) :
    performAll (m.map .fold) s = .next { s with acc := foldBytes m s.acc, pc := s.pc + m.length } := by
  induction m generalizing s with
  | nil => rfl
  | cons b m ih =>
    have hpc : s.pc + 1 + m.length = s.pc + (m.length + 1) := by omega
    rw [List.map_cons, performAll_cons _ (exec_fold b s), ih, List.length_cons, ← hpc]
    rfl

/-- A message's commands leave its checksum in `OUT` (R106). -/
theorem performAll_messageCommands (m : List Byte) (s : State) : performAll (messageCommands m) s =
    .next { s with acc := foldBytes m 0xFFFFFFFF#32, out := crc32 m, pc := s.pc + m.length + 2 } := by
  rw [messageCommands, performAll_cons _ (exec_init s), performAll_append _ (performAll_map_fold m _),
    performAll_cons _ (exec_final _), performAll_nil]
  have hpc : s.pc + 1 + m.length + 1 = s.pc + m.length + 2 := by omega
  simp only [advancePc, setAcc, setOut, hpc]
  rfl

theorem messageCommands_length (bs : List Byte) : (messageCommands bs).length = bs.length + 2 := by
  simp [messageCommands]

/-- Settles O50: the program is the encodings of the message's commands, so the run performs them, and they leave the
checksum that the bit-by-bit form gives too. -/
theorem assembledMessageRunsToItsChecksum : Obligations.AssembledMessageRunsToItsChecksum := by
  intro text bs s hbs hstart hasm
  have hprog : s.program = (messageCommands bs).map encode := by
    rw [assembleLine, hbs, emitWith_ok] at hasm
    rw [← Except.ok.inj hasm, messageWords_eq_encodings]
  have hlen : s.program.length = bs.length + 2 := by
    rw [hprog, List.length_map, messageCommands_length]
  have hrun := run_of_awaits (awaits_of_startState hstart hprog)
  rw [messageCommands_length, performAll_messageCommands] at hrun
  obtain ⟨hpc, hfault, -⟩ := hstart
  refine ⟨_, hrun, ⟨?_, hfault⟩, crc32_eq_crc32Bitwise bs⟩
  change s.pc + bs.length + 2 = s.program.length
  rw [hpc, hlen, Nat.zero_add]

end Sys2Proof.Machine
end

section
/-! SUPPORT. Traversals of the assembler: a text line by line, and what refuses it (30_encoding.md rules R65, R66, log
entry 14). -/

namespace Sys2Proof.Machine

theorem traverseAsm_ok_of_mem {α β : Type} {f : α → Except AsmError β} {xs : List α} {ys : List β}
    (h : traverseAsm f xs = .ok ys) {x : α} (hx : x ∈ xs) : ∃ y, f x = .ok y := by
  have hall := traverseAsm_forall₂ h
  clear h
  induction hall with
  | nil => cases hx
  | cons hy _ ih =>
    obtain rfl | hx := List.mem_cons.mp hx
    · exact ⟨_, hy⟩
    · exact ih hx

/-- A traversal is refused exactly when an element is. -/
theorem traverseAsm_refused_iff {α β : Type} (f : α → Except AsmError β) (xs : List α) :
    (∃ e, traverseAsm f xs = .error e) ↔ ∃ x ∈ xs, ∃ e, f x = .error e := by
  constructor
  · rintro ⟨e, h⟩
    obtain ⟨pre, x, post, -, rfl, -, hx⟩ := traverseAsm_error h
    exact ⟨x, by simp, e, hx⟩
  · rintro ⟨x, hx, e, he⟩
    cases h : traverseAsm f xs with
    | error e' => exact ⟨e', rfl⟩
    | ok ys =>
      obtain ⟨y, hy⟩ := traverseAsm_ok_of_mem h hx
      cases he.symm.trans hy

theorem assemble_cons_ok {l : AsmLine} {ws : List CmdWord} (h : assembleLine l = .ok ws) (ls : List AsmLine) :
    assemble (l :: ls) = emitWith (fun rest => ws ++ rest) (assemble ls) := by
  rw [assemble, assemble, traverseAsm, h]
  cases traverseAsm assembleLine ls <;> rfl

theorem assemble_cons_refused {l : AsmLine} {e : AsmError} (h : assembleLine l = .error e) (ls : List AsmLine) :
    assemble (l :: ls) = .error e := by
  rw [assemble, traverseAsm, h]
  rfl

end Sys2Proof.Machine
end

section
/-! The pseudo-instructions (30_encoding.md rule R66). -/

namespace Sys2Proof.Machine

theorem listedBytes_of_ne_nil {xs : List AsmOperand} (h : xs ≠ []) : listedBytes xs = traverseAsm operandByte xs :=
  if_neg h

/-- A text of fold lines emits the folds of its operands' bytes, or is refused with its first refused operand. -/
theorem assemble_map_fold (xs : List AsmOperand) :
    assemble (xs.map .fold) = emitWith foldWords (traverseAsm operandByte xs) := by
  induction xs with
  | nil => rfl
  | cons x xs ih =>
    rw [List.map_cons, traverseAsm]
    cases hx : operandByte x with
    | error e => exact assemble_cons_refused (assembleLine_operand_refused hx).1 _
    | ok b =>
      rw [assemble_cons_ok (assembleLine_operand_ok hx).1, ih]
      cases traverseAsm operandByte xs <;> rfl

/-- A line of folds between `crc.init` and `crc.final` emits the words of a message, or is refused as the line is. -/
theorem assemble_message {l : AsmLine} {bytes : Except AsmError (List Byte)}
    (h : assembleLine l = emitWith foldWords bytes) : assemble [.init, l, .final] = emitWith messageWords bytes := by
  rw [assemble_cons_ok (l := .init) rfl]
  cases bytes with
  | error e => rw [assemble_cons_refused h, emitWith_error, emitWith_error]
  | ok bs =>
    rw [assemble_cons_ok h]
    rfl

/-- Settles O47: one fold line a byte, and a line of folds between INIT and FINAL. -/
theorem pseudoInstructionsExpand : Obligations.PseudoInstructionsExpand := by
  refine ⟨fun xs hxs => ?_, fun xs _ => (assemble_message rfl).symm, fun s => (assemble_message rfl).symm,
    fun s bs h => ?_⟩
  · rw [assemble_map_fold, assembleLine, listedBytes_of_ne_nil hxs]
  · rw [assembleLine, h, emitWith_ok]

end Sys2Proof.Machine
end

section
/-! SUPPORT. UTF-8 (30_encoding.md rule R66, log entry 11): the form of each length of encoding, and the code point that
its bytes hold. -/

namespace Sys2Proof.Machine

theorem utf8Char_refused {c : Nat} (h : isScalar c = false) : utf8Char c = .error (.notUnicode c) := by
  simp [utf8Char, h]

theorem isScalar_of_lt {c : Nat} (h : c < 0xD800) : isScalar c = true := by
  simp [isScalar, h]

theorem lt_of_isScalar {c : Nat} (h : isScalar c = true) : c < 0x110000 := by
  simp only [isScalar, Bool.or_eq_true, Bool.and_eq_true, decide_eq_true_eq] at h
  omega

theorem isScalar_of_utf8Char_ok {c : Nat} {bs : List Byte} (h : utf8Char c = .ok bs) : isScalar c = true := by
  by_contra hc
  rw [utf8Char_refused (Bool.eq_false_of_not_eq_true hc)] at h
  cases h

theorem utf8Char_one {c : Nat} (h : c < 0x80) : utf8Char c = .ok [BitVec.ofNat 8 c] := by
  rw [utf8Char, if_pos (isScalar_of_lt (by omega)), if_pos h]

/-- Two bytes, 110xxxxx 10xxxxxx: the code point's bits in order. -/
theorem utf8Char_two {c : Nat} (hlo : 0x80 ≤ c) (hhi : c < 0x800) : ∃ a b : Byte, utf8Char c = .ok [a, b] ∧
    0xC2 ≤ a.toNat ∧ a.toNat ≤ 0xDF ∧ 0x80 ≤ b.toNat ∧ b.toNat ≤ 0xBF ∧
    c = (a.toNat - 0xC0) * 64 + (b.toNat - 0x80) := by
  rw [utf8Char, if_pos (isScalar_of_lt (by omega)), if_neg (by omega), if_pos hhi]
  refine ⟨_, _, rfl, ?_⟩
  simp only [BitVec.toNat_ofNat]
  omega

/-- Three bytes, 1110xxxx 10xxxxxx 10xxxxxx. -/
theorem utf8Char_three {c : Nat} (hs : isScalar c = true) (hlo : 0x800 ≤ c) (hhi : c < 0x10000) :
    ∃ a b d : Byte, utf8Char c = .ok [a, b, d] ∧
    0xE0 ≤ a.toNat ∧ a.toNat ≤ 0xEF ∧ 0x80 ≤ b.toNat ∧ b.toNat ≤ 0xBF ∧ 0x80 ≤ d.toNat ∧ d.toNat ≤ 0xBF ∧
    c = (a.toNat - 0xE0) * 4096 + (b.toNat - 0x80) * 64 + (d.toNat - 0x80) := by
  rw [utf8Char, if_pos hs, if_neg (by omega), if_neg (by omega), if_pos hhi]
  refine ⟨_, _, _, rfl, ?_⟩
  simp only [BitVec.toNat_ofNat]
  omega

/-- Four bytes, 11110xxx 10xxxxxx 10xxxxxx 10xxxxxx. -/
theorem utf8Char_four {c : Nat} (hs : isScalar c = true) (hlo : 0x10000 ≤ c) :
    ∃ a b d e : Byte, utf8Char c = .ok [a, b, d, e] ∧
    0xF0 ≤ a.toNat ∧ a.toNat ≤ 0xF4 ∧ 0x80 ≤ b.toNat ∧ b.toNat ≤ 0xBF ∧ 0x80 ≤ d.toNat ∧ d.toNat ≤ 0xBF ∧
    0x80 ≤ e.toNat ∧ e.toNat ≤ 0xBF ∧
    c = (a.toNat - 0xF0) * 262144 + (b.toNat - 0x80) * 4096 + (d.toNat - 0x80) * 64 + (e.toNat - 0x80) := by
  have hhi := lt_of_isScalar hs
  rw [utf8Char, if_pos hs, if_neg (by omega), if_neg (by omega), if_neg (by omega)]
  refine ⟨_, _, _, _, rfl, ?_⟩
  simp only [BitVec.toNat_ofNat]
  omega

/-- The ranges of code points that have one, two, three and four bytes. -/
theorem codePoint_ranges (c : Nat) :
    c < 0x80 ∨ (0x80 ≤ c ∧ c < 0x800) ∨ (0x800 ≤ c ∧ c < 0x10000) ∨ 0x10000 ≤ c := by
  omega

theorem utf8Char_many {c : Nat} (hlo : 0x7F < c) (hs : isScalar c = true) :
    ∃ bs, utf8Char c = .ok bs ∧ 2 ≤ bs.length ∧ bs.length ≤ 4 := by
  obtain h | ⟨h, h'⟩ | ⟨h, h'⟩ | h := codePoint_ranges c
  · omega
  · obtain ⟨a, b, heq, -⟩ := utf8Char_two h h'
    exact ⟨_, heq, by simp, by simp⟩
  · obtain ⟨a, b, d, heq, -⟩ := utf8Char_three hs h h'
    exact ⟨_, heq, by simp, by simp⟩
  · obtain ⟨a, b, d, e, heq, -⟩ := utf8Char_four hs h
    exact ⟨_, heq, by simp, by simp⟩

theorem utf8Char_refused_iff (c : Nat) : (∃ e, utf8Char c = .error e) ↔ isScalar c = false := by
  refine ⟨fun ⟨e, he⟩ => ?_, fun h => ⟨_, utf8Char_refused h⟩⟩
  by_contra hs
  rw [Bool.not_eq_false] at hs
  obtain h | h := Nat.lt_or_ge 0x7F c
  · obtain ⟨bs, hok, -⟩ := utf8Char_many h hs
    cases hok.symm.trans he
  · cases (utf8Char_one (Nat.lt_succ_of_le h)).symm.trans he

/-- The code point that the bytes of one encoding hold: the lead byte's payload, then six bits a continuation byte. -/
def codePointOf : List Byte → Nat
  | [a] => a.toNat
  | [a, b] => (a.toNat - 0xC0) * 64 + (b.toNat - 0x80)
  | [a, b, d] => (a.toNat - 0xE0) * 4096 + (b.toNat - 0x80) * 64 + (d.toNat - 0x80)
  | [a, b, d, e] =>
    (a.toNat - 0xF0) * 262144 + (b.toNat - 0x80) * 4096 + (d.toNat - 0x80) * 64 + (e.toNat - 0x80)
  | _ => 0

/-- The bytes of a code point hold it, whatever their number. -/
theorem codePointOf_utf8Char {c : Nat} {bs : List Byte} (hok : utf8Char c = .ok bs) : codePointOf bs = c := by
  have hs := isScalar_of_utf8Char_ok hok
  obtain h | ⟨h, h'⟩ | ⟨h, h'⟩ | h := codePoint_ranges c
  · obtain rfl := Except.ok.inj ((utf8Char_one h).symm.trans hok)
    exact Nat.mod_eq_of_lt (by omega)
  · obtain ⟨a, b, heq, -, -, -, -, hc⟩ := utf8Char_two h h'
    obtain rfl := Except.ok.inj (heq.symm.trans hok)
    exact hc.symm
  · obtain ⟨a, b, d, heq, -, -, -, -, -, -, hc⟩ := utf8Char_three hs h h'
    obtain rfl := Except.ok.inj (heq.symm.trans hok)
    exact hc.symm
  · obtain ⟨a, b, d, e, heq, -, -, -, -, -, -, -, -, hc⟩ := utf8Char_four hs h
    obtain rfl := Except.ok.inj (heq.symm.trans hok)
    exact hc.symm

end Sys2Proof.Machine
end

section
/-! The bytes of code points and of texts (30_encoding.md rules R65, R66, log entry 11). -/

namespace Sys2Proof.Machine

/-- Settles O48: each length has its form, and equal bytes hold equal code points. -/
theorem codePointsAreOneToFourBytesNoTwoAlike : Obligations.CodePointsAreOneToFourBytesNoTwoAlike := by
  refine ⟨fun c h => utf8Char_one (Nat.lt_succ_of_le h), fun c hlo hs => utf8Char_many hlo hs,
    fun c h => utf8Char_refused h, fun c d bs hc hd => ?_⟩
  exact (codePointOf_utf8Char hc).symm.trans (codePointOf_utf8Char hd)

/-- A text is joined from its code points' bytes in order. -/
theorem utf8Bytes_cons {c : Nat} {s : List Nat} {bs cs : List Byte} (hc : utf8Char c = .ok bs)
    (hs : utf8Bytes s = .ok cs) : utf8Bytes (c :: s) = .ok (bs ++ cs) := by
  rw [utf8Bytes] at hs ⊢
  rw [traverseAsm, hc]
  cases ht : traverseAsm utf8Char s with
  | error e => simp [ht] at hs
  | ok bss =>
    simp only [ht] at hs ⊢
    rw [List.flatten_cons, Except.ok.inj hs]

theorem utf8Bytes_eq_error_iff (s : List Nat) (e : AsmError) :
    utf8Bytes s = .error e ↔ traverseAsm utf8Char s = .error e := by
  rw [utf8Bytes]
  cases traverseAsm utf8Char s <;> simp

theorem utf8Bytes_refused_iff (s : List Nat) : (∃ e, utf8Bytes s = .error e) ↔ ∃ c ∈ s, isScalar c = false := by
  simp only [utf8Bytes_eq_error_iff, traverseAsm_refused_iff, utf8Char_refused_iff]

/-- Settles O51: the three forms above one byte, the join of a text, and its refusal with its first code point's. -/
theorem utf8BytesByLeadAndContinuation : Obligations.Utf8BytesByLeadAndContinuation := by
  refine ⟨fun c hlo hhi => utf8Char_two hlo hhi, fun c hs hlo hhi => utf8Char_three hs hlo hhi,
    fun c hs hlo => utf8Char_four hs hlo, rfl, fun c s bs cs hc hs => utf8Bytes_cons hc hs, utf8Bytes_refused_iff,
    fun s e h => ?_⟩
  simp [assembleLine, h]

end Sys2Proof.Machine
end

section
/-! The table as rounds of the reduction (40_table_rom.md rule R80, 00_scope.md rule R10). -/

namespace Sys2Proof.Machine

/-- `rem[0]` is the lowest binary digit (R10). -/
theorem getLsbD_zero_eq_decide_mod (x : Word) : x.getLsbD 0 = decide (x.toNat % 2 = 1) := by
  rw [BitVec.getLsbD, Nat.testBit_zero]

theorem reduceRound_of_odd {x : Word} (h : x.toNat % 2 = 1) : reduceRound x = (x >>> 1) ^^^ 0xEDB88320#32 := by
  rw [reduceRound, getLsbD_zero_eq_decide_mod, decide_eq_true h, if_pos rfl, Config.poly]

theorem reduceRound_of_even {x : Word} (h : x.toNat % 2 = 0) : reduceRound x = x >>> 1 := by
  have hodd : ¬x.toNat % 2 = 1 := by omega
  rw [reduceRound, getLsbD_zero_eq_decide_mod, decide_eq_false hodd, if_neg Bool.false_ne_true]

theorem romRead_eq_iterate (i : Byte) : romRead i = reduceRound^[8] (BitVec.ofNat 32 i.toNat) := by
  rw [BitVec.ofNat_toNat, ← reduceRounds_eq_iterate]
  rfl

/-- Settles O1: the model's rounds are the iterates of one round, split by the parity of what it reduces. -/
theorem tableEntryIsEightReductionRounds : Obligations.TableEntryIsEightReductionRounds :=
  ⟨fun _ h => reduceRound_of_odd h, fun _ h => reduceRound_of_even h, romRead_eq_iterate, by decide⟩

end Sys2Proof.Machine
end

section
/-! The table as a linear map of its index, decided by the eight single-bit indices (40_table_rom.md rule R81). -/

namespace Sys2Proof.Machine

/-- What holds of zero and of the single bits and is kept by XOR holds of every byte whose bits from `n` upwards are
clear: bit `n`, when set, is XORed away. -/
theorem byte_xor_induction_below {P : Byte → Prop} (hzero : P 0#8) (hbit : ∀ k : Fin 8, P (1#8 <<< k.val))
    (hxor : ∀ a c, P a → P c → P (a ^^^ c)) (n : Nat) (hn : n ≤ 8) (i : Byte)
    (hi : ∀ j, n ≤ j → i.getLsbD j = false) : P i := by
  induction n generalizing i with
  | zero =>
    obtain rfl : i = 0#8 := BitVec.eq_of_getLsbD_eq fun j _ => by simp [hi j j.zero_le]
    exact hzero
  | succ n ih =>
    cases hin : i.getLsbD n with
    | false =>
      refine ih (by omega) i fun j hj => ?_
      obtain rfl | hlt := hj.eq_or_lt
      · exact hin
      · exact hi j hlt
    | true =>
      have hrest : P (i ^^^ 1#8 <<< n) := by
        refine ih (by omega) _ fun j hj => ?_
        obtain rfl | hlt := hj.eq_or_lt
        · simp [hin, Nat.lt_of_succ_le hn]
        · have hne : j - n ≠ 0 := by omega
          simp [hi j hlt, hne]
      simpa [BitVec.xor_assoc] using hxor _ _ hrest (hbit ⟨n, hn⟩)

/-- A property of bytes that XOR keeps is decided at zero and at the eight single bits. -/
theorem byte_xor_induction {P : Byte → Prop} (hzero : P 0#8) (hbit : ∀ k : Fin 8, P (1#8 <<< k.val))
    (hxor : ∀ a c, P a → P c → P (a ^^^ c)) (i : Byte) : P i :=
  byte_xor_induction_below hzero hbit hxor 8 le_rfl i fun j hj => BitVec.getLsbD_of_ge i j hj

theorem romRead_xor (a c : Byte) : romRead (a ^^^ c) = romRead a ^^^ romRead c := by
  simp only [romRead, reduce8, BitVec.setWidth_xor, reduceRounds_xor]

@[simp] theorem romRead_zero : romRead 0#8 = 0#32 := by decide

theorem xorSelected_xor (a c : Byte) (k : Nat) (bs : List Word) :
    xorSelected (a ^^^ c) k bs = xorSelected a k bs ^^^ xorSelected c k bs := by
  induction bs generalizing k with
  | nil => exact BitVec.xor_self.symm
  | cons b bs ih =>
    have hhead : (if (a ^^^ c).getLsbD k then b else 0#32) =
        (if a.getLsbD k then b else 0#32) ^^^ (if c.getLsbD k then b else 0#32) := by
      rw [BitVec.getLsbD_xor]
      cases a.getLsbD k <;> cases c.getLsbD k <;> simp
    rw [xorSelected, xorSelected, xorSelected, ih, hhead]
    ac_rfl

theorem xorTaps_xor (a c : Byte) (ks : List Nat) : xorTaps (a ^^^ c) ks = (xorTaps a ks ^^ xorTaps c ks) := by
  induction ks with
  | nil => rfl
  | cons k ks ih =>
    rw [xorTaps, xorTaps, xorTaps, ih, BitVec.getLsbD_xor, Bool.xor_assoc, Bool.xor_assoc,
      Bool.xor_left_comm (c.getLsbD k)]

/-- The basis constants are the entries of the single bits. -/
theorem romBasis_getElem? (k : Fin 8) : romBasis[k.val]? = some (romRead (1#8 <<< k.val)) := by
  revert k
  decide

theorem romRead_eq_romXorTree (i : Byte) : romRead i = romXorTree i := by
  refine byte_xor_induction (P := fun i => romRead i = romXorTree i)
    (by decide) (by decide) (fun a c ha hc => ?_) i
  rw [romRead_xor, ha, hc, romXorTree, romXorTree, romXorTree, xorSelected_xor]

theorem romRead_getLsbD (i : Byte) (j : Fin 32) : (romRead i).getLsbD j.val = romTreeBit i j.val := by
  refine byte_xor_induction (P := fun i => ∀ j : Fin 32, (romRead i).getLsbD j.val = romTreeBit i j.val)
    (by decide) (by decide) (fun a c ha hc j => ?_) i j
  rw [romRead_xor, BitVec.getLsbD_xor, ha, hc, romTreeBit, romTreeBit, romTreeBit, xorTaps_xor]

/-- Settles O2: the table and both trees are linear, and agree on the single bits. -/
theorem tableIsLinearAndXorTree : Obligations.TableIsLinearAndXorTree :=
  ⟨romRead_xor, romRead_zero, romBasis_getElem?, romRead_eq_romXorTree, romRead_getLsbD⟩

end Sys2Proof.Machine
end

section
/-! Rounds can be undone: the bit that a round shifts out stands in the result's top bit, since `POLY`'s top bit is set.
So the top byte of an entry tells its index (40_table_rom.md rule R83). -/

namespace Sys2Proof.Machine

theorem reduceRound_getLsbD_top (x : Word) : (reduceRound x).getLsbD 31 = x.getLsbD 0 := by
  rw [reduceRound_eq]
  cases x.getLsbD 0 <;> simp [Config.poly]

theorem reduceRound_injective : Function.Injective reduceRound := by
  intro x y h
  have hlow : x.getLsbD 0 = y.getLsbD 0 := by
    rw [← reduceRound_getLsbD_top, h, reduceRound_getLsbD_top]
  have hup : x >>> 1 = y >>> 1 := by
    rwa [reduceRound_eq, reduceRound_eq, hlow, BitVec.xor_left_inj] at h
  refine BitVec.eq_of_getLsbD_eq fun j _ => ?_
  cases j with
  | zero => exact hlow
  | succ j => simpa [Nat.add_comm] using congrArg (·.getLsbD j) hup

theorem reduceRounds_injective (n : Nat) : Function.Injective (reduceRounds n) := by
  rw [funext (reduceRounds_eq_iterate n)]
  exact reduceRound_injective.iterate n

theorem reduceRounds_succ (n : Nat) (x : Word) : reduceRounds (n + 1) x = reduceRound (reduceRounds n x) := by
  rw [reduceRounds_eq_iterate, reduceRounds_eq_iterate, Function.iterate_succ_apply']

/-- The top `n` bits after `n` rounds are clear only if the `n` bits shifted out were: read the rounds backwards. -/
theorem low_bits_clear_of_reduceRounds_top_clear (n : Nat) (hn : n ≤ 32) (x : Word)
    (h : ∀ k < n, (reduceRounds n x).getLsbD (31 - k) = false) : ∀ k < n, x.getLsbD k = false := by
  induction n with
  | zero => exact fun k hk => absurd hk k.not_lt_zero
  | succ n ih =>
    rw [reduceRounds_succ] at h
    have hout : (reduceRounds n x).getLsbD 0 = false := by
      rw [← reduceRound_getLsbD_top]
      exact h 0 n.succ_pos
    have hshift : reduceRound (reduceRounds n x) = reduceRounds n x >>> 1 := by
      rw [reduceRound, hout, if_neg Bool.false_ne_true]
    have hlow : ∀ k < n, x.getLsbD k = false := ih (by omega) fun k hk => by
      have hclear := h (k + 1) (by omega)
      rwa [hshift, BitVec.getLsbD_ushiftRight, show 1 + (31 - (k + 1)) = 31 - k by omega] at hclear
    intro k hk
    obtain hlt | rfl := Nat.lt_succ_iff_lt_or_eq.mp hk
    · exact hlow k hlt
    · simpa [reduceRounds_eq_ushiftRight k x hlow] using hout

/-- `ROM[i][31:24]`, the most significant byte of an entry (R83). -/
def romTopByte (i : Byte) : Byte := (romRead i).extractLsb' 24 8

theorem romTopByte_xor (a c : Byte) : romTopByte (a ^^^ c) = romTopByte a ^^^ romTopByte c := by
  rw [romTopByte, romRead_xor, BitVec.extractLsb'_xor, romTopByte, romTopByte]

/-- Only index 0 has the top byte zero. -/
theorem eq_zero_of_romTopByte_eq_zero {i : Byte} (h : romTopByte i = 0#8) : i = 0#8 := by
  have htop : ∀ k < 8, (romRead i).getLsbD (31 - k) = false := fun k hk => by
    have hbit := congrArg (·.getLsbD (7 - k)) h
    simpa [romTopByte, show 7 - k < 8 by omega, show 24 + (7 - k) = 31 - k by omega] using hbit
  have hlow := low_bits_clear_of_reduceRounds_top_clear 8 (by decide) (i.setWidth 32) htop
  refine BitVec.eq_of_getLsbD_eq fun k hk => ?_
  simpa [show k < 32 by omega] using hlow k hk

theorem romTopByte_injective : Function.Injective romTopByte := by
  intro i j h
  apply BitVec.xor_eq_zero_iff.mp
  apply eq_zero_of_romTopByte_eq_zero
  rw [romTopByte_xor, h, BitVec.xor_self]

theorem romRead_injective : Function.Injective romRead :=
  fun _ _ h => romTopByte_injective (congrArg (BitVec.extractLsb' 24 8) h)

/-- FOLD by its rounds: they can be undone, and so can the XOR with the byte. -/
theorem foldByte_injective (b : Byte) : Function.Injective (foldByte · b) := by
  intro x y h
  simp only [← foldBitwise_eq_foldByte, foldBitwise] at h
  exact (BitVec.xor_left_inj _).mp (reduceRounds_injective 8 h)

/-- Settles O3: the top byte is injective on the bytes, so it is onto and has an inverse. -/
theorem tableTopBytesArePermutation : Obligations.TableTopBytesArePermutation :=
  ⟨fun _ _ h => romRead_injective h, fun _ _ h => romTopByte_injective h,
    Finite.surjective_of_injective romTopByte_injective, romTopByte_injective.hasLeftInverse,
    fun b _ _ h => foldByte_injective b h⟩

end Sys2Proof.Machine
end

section
/-! The table's listing (40_table_rom.md rules R82, R86). -/

namespace Sys2Proof.Machine

/-- The entries of the `n` indices from `k` upwards. -/
def romEntries (k n : Nat) : List Word := (List.range' k n).map fun j => romRead (BitVec.ofNat 8 j)

theorem romEntries_append (k m n : Nat) : romEntries k m ++ romEntries (k + m) n = romEntries k (m + n) := by
  rw [romEntries, romEntries, ← List.map_append, List.range'_append_1, romEntries]

@[simp] theorem romEntries_length (k n : Nat) : (romEntries k n).length = n := by
  simp [romEntries]

theorem romListing0_eq : romListing0 = romEntries 0 64 := by decide
theorem romListing1_eq : romListing1 = romEntries 64 64 := by decide
theorem romListing2_eq : romListing2 = romEntries 128 64 := by decide
theorem romListing3_eq : romListing3 = romEntries 192 64 := by decide

theorem romListing_eq : romListing = romEntries 0 256 := by
  rw [romListing, romListing0_eq, romListing1_eq, romListing2_eq, romListing3_eq,
    romEntries_append 0 64 64, romEntries_append 0 128 64, romEntries_append 0 192 64]

theorem romListing_getElem? (i : Byte) : romListing[i.toNat]? = some (romRead i) := by
  simp [romListing_eq, romEntries, List.getElem?_range' i.isLt]

/-- Settles O4: the listing, a quarter at a time, is the entries in the order of their indices. -/
theorem tableListingIsTheTable : Obligations.TableListingIsTheTable :=
  ⟨by rw [romListing_eq, romEntries_length], romListing_getElem?, romRead_zero, by decide, by decide, by decide⟩

end Sys2Proof.Machine
end

section
/-! ROMRD (40_table_rom.md rule R84). -/

namespace Sys2Proof.Machine

theorem exec_romrd_eq (i : Byte) (s : State) : exec (.romrd i) s = .next { s with out := reduce8 i, pc := s.pc + 1 } :=
  rfl

/-- Entry 0 is the only zero entry. -/
theorem reduce8_eq_zero_iff (i : Byte) : reduce8 i = 0#32 ↔ i = 0#8 :=
  romRead_injective.eq_iff' romRead_zero

/-- The second ROMRD writes what the first one wrote. -/
theorem performAll_romrd_twice (i : Byte) (s : State) :
    performAll [.romrd i, .romrd i] s = .next { s with out := reduce8 i, pc := s.pc + 2 } := by
  rw [performAll_cons _ (exec_romrd_eq i s), performAll_cons _ (exec_romrd_eq i _), performAll_nil]

/-- Settles O5: the command by its meaning, its words by the row of the opcode map, its zero by the entries' being
distinct. -/
theorem romrdWritesTableEntryToOut : Obligations.RomrdWritesTableEntryToOut := by
  refine ⟨exec_romrd_eq, fun w h => decode_of_romrd_row h, fun _ => rfl, reduce8_eq_zero_iff, by decide,
    performAll_romrd_twice, fun s => ?_⟩
  have hdecode : decode 0x0480#16 = .command (.romrd 0x80#8) := by decide
  have hentry : reduce8 0x80#8 = 0xEDB88320#32 := by decide
  rw [performWord, hdecode]
  exact (exec_romrd_eq 0x80#8 s).trans (by rw [hentry])

end Sys2Proof.Machine
end

section
/-! SUPPORT. What a sequence of commands leaves: the commands' effects on the registers in order, and `pc` one more for
each (10_state.md rule R25, 20_memory.md rule R48, 41_fold_engine.md rule R101). -/

namespace Sys2Proof.Machine

/-- The registers after a sequence of commands. -/
def registersAfter (cs : List Instr) (r : Registers) : Registers := cs.foldl (fun r i => hardwareCommand i r) r

@[simp] theorem registersAfter_nil (r : Registers) : registersAfter [] r = r := rfl

@[simp] theorem registersAfter_cons (i : Instr) (cs : List Instr) (r : Registers) :
    registersAfter (i :: cs) r = registersAfter cs (hardwareCommand i r) := rfl

@[simp] theorem registersAfter_append (cs ds : List Instr) (r : Registers) :
    registersAfter (cs ++ ds) r = registersAfter ds (registersAfter cs r) :=
  List.foldl_append

/-- Every sequence completes, since every command does (R130); it leaves its effect on the registers, and advances `pc`
by its length. -/
theorem performAll_eq_next (cs : List Instr) (s : State) : performAll cs s =
    .next { setRegisters (registersAfter cs (registersOf s)) s with pc := s.pc + cs.length } := by
  induction cs generalizing s with
  | nil => rfl
  | cons i cs ih =>
    rw [performAll_cons cs (exec_eq_next i s), ih, List.length_cons, Nat.add_comm cs.length 1, ← Nat.add_assoc]
    rfl

/-- Settles O35: a sequence completes from either state, with the same registers since the first ones are the same, and
keeps the fault. -/
theorem registersDecideTheResult : Obligations.RegistersDecideTheResult := by
  intro cs s s' hacc hout hfault
  have hregs : registersOf s = registersOf s' := by rw [registersOf, registersOf, hacc, hout]
  have hafter := congrArg (registersAfter cs) hregs
  exact ⟨_, _, performAll_eq_next cs s, performAll_eq_next cs s', congrArg Registers.acc hafter,
    congrArg Registers.out hafter, hfault⟩

end Sys2Proof.Machine
end

section
/-! The checksum a message leaves in `OUT` (41_fold_engine.md rules R106, R110). -/

namespace Sys2Proof.Machine

/-- Between INIT and FINAL the FOLDs alone change `ACC`: a NOP changes no register, a ROMRD only `OUT`. -/
theorem registersAfter_acc_insideMessage {cs : List Instr} (h : cs.all insideMessage = true) (r : Registers) :
    (registersAfter cs r).acc = foldBytes (foldedBytes cs) r.acc := by
  induction cs generalizing r with
  | nil => rfl
  | cons i cs ih =>
    rw [List.all_cons, Bool.and_eq_true] at h
    obtain ⟨hi, hcs⟩ := h
    rw [registersAfter_cons, ih hcs]
    cases i with
    | nop => rfl
    | init => cases hi
    | fold b => rfl
    | final => cases hi
    | romrd k => rfl

/-- A FINAL shows the complement of what the message's bytes made of `ACC`. -/
theorem registersAfter_final_out {cs : List Instr} (h : cs.all insideMessage = true) (r : Registers) :
    (registersAfter (cs ++ [.final]) r).out = ~~~(foldBytes (foldedBytes cs) r.acc) := by
  rw [← registersAfter_acc_insideMessage h, registersAfter_append]
  rfl

/-- From the accumulator's start value, that is the checksum (R11). -/
theorem registersAfter_message_out {cs : List Instr} (h : cs.all insideMessage = true) {r : Registers}
    (hacc : r.acc = 0xFFFFFFFF#32) : (registersAfter (cs ++ [.final]) r).out = crc32 (foldedBytes cs) := by
  rw [registersAfter_final_out h, hacc, crc32]

theorem all_insideMessage_map_fold (m : List Byte) : (m.map Instr.fold).all insideMessage = true := by
  simp [insideMessage]

/-- Settles O36: the message alone by `performAll_messageCommands`; with other commands around it, whatever stood before
the INIT or before the run, the message's bytes start from all ones. -/
theorem messageLeavesItsChecksum : Obligations.MessageLeavesItsChecksum := by
  refine ⟨performAll_messageCommands, fun pre cs s hcs => ⟨_, performAll_eq_next _ s, ?_, rfl⟩, fun cs s hcs hacc =>
    ⟨_, performAll_eq_next _ s, registersAfter_message_out (r := registersOf s) hcs hacc⟩, fun m i s => ?_⟩
  · have hinit : (hardwareCommand .init (registersAfter pre (registersOf s))).acc = 0xFFFFFFFF#32 := rfl
    exact (congrArg Registers.out (registersAfter_append pre _ _)).trans (registersAfter_message_out hcs hinit)
  · have hsplit : (.init :: (m.map .fold ++ [.final, .romrd i]) : List Instr) = messageCommands m ++ [.romrd i] := by
      simp [messageCommands]
    rw [hsplit, performAll_append _ (performAll_messageCommands m s), performAll_cons _ (exec_romrd i _)]
    exact ⟨_, rfl, rfl⟩

/-- Settles O41: the first FINAL keeps `ACC`, so the second part's bytes are folded where the first part's ended. -/
theorem finalLetsTheMessageContinue : Obligations.FinalLetsTheMessageContinue := by
  intro m m' s
  refine ⟨_, _, performAll_messageCommands m s, rfl, performAll_eq_next _ _, ?_⟩
  refine (registersAfter_final_out (all_insideMessage_map_fold m') _).trans ?_
  simp only [registersOf, foldedBytes_map_fold, crc32, foldBytes_append]

end Sys2Proof.Machine
end

section
/-! Which changes of a message its checksum cannot miss (41_fold_engine.md rules R107 to R109). -/

namespace Sys2Proof.Machine

/-- A fold of one byte tells the bytes apart, since they read different entries (R83). -/
theorem foldByte_byte_injective (acc : Word) : Function.Injective (foldByte acc) := by
  intro b c h
  have hindex : foldIndex acc b = foldIndex acc c := romRead_injective ((BitVec.xor_right_inj _).mp h)
  rw [foldIndex_eq, foldIndex_eq] at hindex
  exact (BitVec.xor_right_inj _).mp hindex

theorem foldBytes_injective (m : List Byte) : Function.Injective (foldBytes m) := by
  induction m with
  | nil => exact fun _ _ h => h
  | cons b m ih => exact fun _ _ h => foldByte_injective b (ih h)

/-- Messages with the same bytes before and after a place have the same checksum only if `ACC` is the same right after
that place. -/
theorem crc32_eq_iff_between (m m' x y : List Byte) : crc32 (m ++ (x ++ m')) = crc32 (m ++ (y ++ m')) ↔
    foldBytes x (foldBytes m 0xFFFFFFFF#32) = foldBytes y (foldBytes m 0xFFFFFFFF#32) := by
  simp only [crc32, foldBytes_append, BitVec.not_inj, (foldBytes_injective m').eq_iff]

/-- What folding one byte and folding another leave differs by the entry of the bytes' XOR (R81). -/
theorem foldByte_xor_foldByte (acc : Word) (b c : Byte) : foldByte acc b ^^^ foldByte acc c = romRead (b ^^^ c) := by
  have hcancel : (acc ^^^ b.setWidth 32) ^^^ (acc ^^^ c.setWidth 32) = (b ^^^ c).setWidth 32 := calc
    _ = (acc ^^^ acc) ^^^ (b.setWidth 32 ^^^ c.setWidth 32) := by ac_rfl
    _ = (b ^^^ c).setWidth 32 := by rw [BitVec.xor_self, BitVec.zero_xor, BitVec.setWidth_xor]
  rw [← foldBitwise_eq_foldByte, ← foldBitwise_eq_foldByte, foldBitwise, foldBitwise, ← reduceRounds_xor, hcancel]
  rfl

/-- Only entry 0 is its own index: the top byte of every other entry is not zero (R83). -/
theorem eq_zero_of_romRead_eq_self {i : Byte} (h : romRead i = i.setWidth 32) : i = 0#8 := by
  apply eq_zero_of_romTopByte_eq_zero
  rw [romTopByte, h]
  refine BitVec.eq_of_getLsbD_eq fun j _ => ?_
  have habove : i.getLsbD (24 + j) = false := BitVec.getLsbD_of_ge i _ (by omega)
  simp [habove]

/-- Two folds tell the order of two bytes: with the last rounds undone, exchanging the bytes changes `ACC` by their XOR
and by that XOR's entry, which are equal for no two different bytes. -/
theorem eq_of_foldByte_comm {acc : Word} {b c : Byte}
    (h : foldByte (foldByte acc b) c = foldByte (foldByte acc c) b) : b = c := by
  rw [← foldBitwise_eq_foldByte (foldByte acc b), ← foldBitwise_eq_foldByte (foldByte acc c)] at h
  have hundone : foldByte acc b ^^^ c.setWidth 32 = foldByte acc c ^^^ b.setWidth 32 := reduceRounds_injective 8 h
  have hentry : romRead (b ^^^ c) ^^^ (b ^^^ c).setWidth 32 = 0#32 := by
    rw [← BitVec.xor_eq_zero_iff.mpr hundone, ← foldByte_xor_foldByte acc, BitVec.setWidth_xor]
    ac_rfl
  exact BitVec.xor_eq_zero_iff.mp (eq_zero_of_romRead_eq_self (BitVec.xor_eq_zero_iff.mp hentry))

theorem exec_fold_eq (b : Byte) (s : State) :
    exec (.fold b) s = .next { s with acc := foldByte s.acc b, pc := s.pc + 1 } :=
  rfl

/-- Settles O37: FOLD's table form is R107's rounds, byte by byte of a message. -/
theorem foldIsEightBitRounds : Obligations.FoldIsEightBitRounds := by
  refine ⟨fun b s => ?_, crc32_eq_crc32Bitwise⟩
  rw [exec_fold_eq, foldBitwise_eq_foldByte]

/-- Settles O40: the differing bytes are told apart when they are folded, and no later byte undoes that. -/
theorem oneByteChangesTheChecksum : Obligations.OneByteChangesTheChecksum := by
  intro m m' b c hne h
  exact hne (foldByte_byte_injective _ ((crc32_eq_iff_between m m' [b] [c]).mp h))

/-- Settles O39: two folds tell the order of the two bytes, and no later byte undoes that. -/
theorem byteOrderMatters : Obligations.ByteOrderMatters := by
  refine ⟨fun m m' b c hne h => ?_, by decide, by decide⟩
  exact hne (eq_of_foldByte_comm ((crc32_eq_iff_between m m' [b, c] [c, b]).mp h))

end Sys2Proof.Machine
end

section
/-! A step that performs the word at `pc` (10_state.md rules R25, R28, 41_fold_engine.md rule R101), and the placing of
such a word (log entry 15). -/

namespace Sys2Proof.Machine

theorem performWord_command {w : CmdWord} {i : Instr} (h : decode w = .command i) (s : State) :
    performWord w s = exec i s := by
  simp [performWord, h]

/-- Settles O18: the port shows the program's word, and the word is the command it decodes to. -/
theorem stepRunsDecodedInstruction : Obligations.StepRunsDecodedInstruction := by
  intro s w i hf hd hw hdec _
  have hcmd : (currentPins s).cmd = some w := by simp [currentPins, nextCommand, hd, hw]
  rw [step_of_word (by rw [hd]) hf hcmd, performWord_command hdec]
  rfl

/-- Only the drives may differ. -/
theorem withPresentingDrive_eq (s : State) : ∃ port, withPresentingDrive s = { s with port := port } := by
  unfold withPresentingDrive
  split
  · exact ⟨s.port, rfl⟩
  · exact ⟨_, rfl⟩

theorem currentDrive_withPresentingDrive (s : State) : currentDrive (withPresentingDrive s) = ⟨false, true⟩ := by
  unfold withPresentingDrive
  split
  · assumption
  · rfl

theorem placeWord_getElem?_self (k : Nat) (w : CmdWord) (P : List CmdWord) : (placeWord k w P)[k]? = some w := by
  have hlen : (P.take k ++ List.replicate (k - P.length) 0x0000#16).length = k := by simp; omega
  rw [placeWord, List.getElem?_append_right hlen.le, hlen, Nat.sub_self, List.getElem?_cons_zero]

theorem instr?_eq_some_iff {d : Decoded} {i : Instr} : d.instr? = some i ↔ d = .command i := by
  cases d <;> simp [Decoded.instr?]

theorem decode_of_decodeTableWord {w : Nat} {i : Instr} (hw : w < 2 ^ 16) (h : decodeTableWord 16 w = some i) :
    decode (BitVec.ofNat 16 w) = .command i := by
  rw [decodeTableWord, Nat.mod_eq_of_lt hw, if_pos hw] at h
  exact instr?_eq_some_iff.mp h

/-- Settles O26: the state with the word placed meets what `StepRunsDecodedInstruction` asks for, and differs from the
first one in its inputs and its fault record alone. -/
theorem placedWordRunsNext : Obligations.PlacedWordRunsNext := by
  intro s w i hi hw
  have hdec := decode_of_decodeTableWord hw hi
  obtain ⟨port, hv⟩ := withPresentingDrive_eq
    { s with fault := none, program := placeWord s.pc (BitVec.ofNat 16 (w % 2 ^ 16)) s.program }
  have hword : (s.withFetchWord 16 w).program[(s.withFetchWord 16 w).pc]? = some (BitVec.ofNat 16 w) := by
    rw [State.withFetchWord, hv, Nat.mod_eq_of_lt hw]
    exact placeWord_getElem?_self _ _ _
  have hfault : (s.withFetchWord 16 w).fault = none := by rw [State.withFetchWord, hv]
  refine ⟨_, stepRunsDecodedInstruction _ _ i hfault (currentDrive_withPresentingDrive _) hword hdec (instr_wf i), ?_⟩
  rw [State.withFetchWord, hv]
  exact ⟨rfl, rfl, rfl, rfl⟩

end Sys2Proof.Machine
end

section
/-! NOP, INIT, FOLD and FINAL, each whole (41_fold_engine.md rules R102 to R105). -/

namespace Sys2Proof.Machine

theorem decode_eq_command_iff (w : CmdWord) (i : Instr) : decode w = .command i ↔ w = encode i :=
  ⟨fun h => (encode_of_decode h).symm, fun h => h ▸ decode_encode i⟩

/-- A row with the full mask holds one word (R62). -/
theorem decode_eq_command_iff_full_mask (w : CmdWord) (i : Instr) :
    decode w = .command i ↔ w &&& 0xFFFF#16 = encode i := by
  rw [full_mask, decode_eq_command_iff]

/-- Settles O6: NOP by its meaning, its word by the decoder's being the encoder's inverse, the reserved words by their
class. -/
theorem nopOnlyAdvancesPc : Obligations.NopOnlyAdvancesPc :=
  ⟨exec_nop, fun w => decode_eq_command_iff_full_mask w .nop, fun w hlo hhi =>
    ⟨_, (decode_eq_reserved_iff w .nopOperand).mpr ⟨hlo, hhi⟩⟩⟩

/-- Settles O7: INIT by its meaning; the second of two INITs writes what the first one wrote. -/
theorem initSetsAccumulator : Obligations.InitSetsAccumulator := by
  refine ⟨exec_init, fun w => decode_eq_command_iff_full_mask w .init, fun s => ?_, exec_init _⟩
  rw [performAll_cons _ (exec_init s), performAll_cons _ (exec_init _)]
  rfl

theorem exec_final_eq (s : State) :
    exec .final s = .next { s with out := s.acc ^^^ 0xFFFFFFFF#32, pc := s.pc + 1 } := by
  rw [exec_final, finalise_eq_xor]
  rfl

/-- Settles O9: FINAL by its meaning; after INIT and after reset the complement is that of all ones. -/
theorem finalWritesComplementToOut : Obligations.FinalWritesComplementToOut := by
  refine ⟨exec_final_eq, fun w => decode_eq_command_iff_full_mask w .final, fun s => ?_, exec_final_eq _, fun s => ?_,
    fun s hacc => ?_⟩
  · have hempty : crc32 [] = 0x00000000#32 := by decide
    rw [← hempty]
    exact performAll_messageCommands [] s
  · rw [performAll_cons _ (exec_final_eq s), performAll_cons _ (exec_final_eq _)]
    rfl
  · rw [exec_final_eq, hacc]
    rfl

/-- The shift of FOLD as wiring: a zero byte above `ACC[31:8]` (R104). -/
theorem ushiftRight_eight_eq_append (acc : Word) : acc >>> 8 = 0x00#8 ++ acc.extractLsb' 8 24 := by
  refine BitVec.eq_of_getLsbD_eq fun j hj => ?_
  rw [BitVec.getLsbD_append]
  by_cases h : j < 24
  · simp [h]
  · have habove : acc.getLsbD (8 + j) = false := BitVec.getLsbD_of_ge acc _ (by omega)
    simp [h, habove]

/-- FOLD's table form as wires and XOR trees (R104). -/
theorem foldByte_eq_wiring (acc : Word) (b : Byte) :
    foldByte acc b = (0x00#8 ++ acc.extractLsb' 8 24) ^^^ romXorTree (acc.extractLsb' 0 8 ^^^ b) := by
  rw [foldByte, foldIndex_eq, romRead_eq_romXorTree, ushiftRight_eight_eq_append,
    ← BitVec.setWidth_eq_extractLsb' (by decide)]

/-- The byte that equals `ACC[7:0]` reads entry 0 (R104 (a)). -/
theorem foldByte_low_byte (acc : Word) : foldByte acc (acc.setWidth 8) = acc >>> 8 := by
  rw [foldByte, foldIndex_eq, BitVec.xor_self, romRead_zero, BitVec.xor_zero]

/-- Nothing but the entry reaches the top byte (R104 (c)). -/
theorem foldByte_top_byte (acc : Word) (b : Byte) :
    (foldByte acc b).extractLsb' 24 8 = (romRead (foldIndex acc b)).extractLsb' 24 8 := by
  have hshift : (acc >>> 8).extractLsb' 24 8 = 0#8 := by
    refine BitVec.eq_of_getLsbD_eq fun j _ => ?_
    have habove : acc.getLsbD (8 + (24 + j)) = false := BitVec.getLsbD_of_ge acc _ (by omega)
    simp [habove]
  rw [foldByte, BitVec.extractLsb'_xor, hshift, BitVec.zero_xor]

/-- Settles O8: FOLD by its meaning, its words by the row of the opcode map, the rest by what the new `ACC` is. -/
theorem foldWritesShiftedAccXorTableEntry : Obligations.FoldWritesShiftedAccXorTableEntry := by
  refine ⟨exec_fold_eq, fun b s => ?_, fun w h => decode_of_fold_row h, fun _ => rfl, fun s => ?_, fun s hacc => ?_,
    fun b s => ⟨_, exec_fold_eq b s, foldByte_top_byte s.acc b⟩, fun s hacc => ?_⟩
  · rw [exec_fold_eq, foldByte_eq_wiring]
  · rw [exec_fold_eq, foldByte_low_byte]
  · have hzero : foldByte s.acc 0x00#8 = s.acc := by rw [hacc]; decide
    rw [exec_fold_eq, hzero]
  · have hdecode : decode 0x0261#16 = .command (.fold 0x61#8) := by decide
    have hfold : foldByte 0xFFFFFFFF#32 0x61#8 = 0x174841BC#32 := by decide
    rw [performWord_command hdecode, exec_fold_eq, hacc, hfold]

end Sys2Proof.Machine
end

section
/-! The block's exceptions (60_exceptions.md rules R130, R131, R134, R139): none by a command, one recorded by a reserved
word in the model, and none in the hardware, which takes a reserved word for an idle step. -/

namespace Sys2Proof.Machine

/-- Settles O10: `exec_eq_next` with its named updates written out. -/
theorem everyCommandCompletes : Obligations.EveryCommandCompletes :=
  fun i s => exec_eq_next i s

/-- Settles O20: the presented word's step takes `IllegalCommand`, and the record is what the next step without a reset
answers. -/
theorem reservedWordRecordsFaultAndStops : Obligations.ReservedWordRecordsFaultAndStops := by
  intro s w v c hdec
  refine ⟨fun r => hardwareWord_reserved hdec r, fun hf hpins => ?_⟩
  have hstep : step s = .next (takeIllegalCommand w (consumeDrive s)) := by
    have hrst : (currentDrive s).rst = false := by rw [← currentPins_rst, hpins]
    rw [step_of_word hrst hf (by rw [hpins]), performWord_reserved hdec]
  have hnone : faultCode s.fault = 0 := by rw [hf, faultCode]
  exact ⟨_, hstep, rfl, rfl, hnone, fun hr => step_of_fault hr (takeIllegalCommand_fault w (consumeDrive s))⟩

/-- A step that `effectiveStep` leaves out presents nothing or a reserved word, without a reset, and changes no register
(R131, R139). -/
theorem hardwareStep_of_not_effective {p : PortInput} (h : effectiveStep p = false) (r : Registers) :
    hardwareStep p r = r := by
  obtain ⟨rst, cmd⟩ := p
  obtain ⟨hr, hcmd⟩ := Bool.or_eq_false_iff.mp h
  cases cmd with
  | none => exact hardwareStep_of_idle hr rfl r
  | some w =>
    obtain ⟨c, hdec⟩ := decode_reserved_of_not_isCommandWord hcmd
    rw [hardwareStep_of_word hr rfl, hardwareWord_reserved hdec]

/-- Settles O32, by induction on the steps: one left out keeps the registers, one kept is the first of both runs. -/
theorem hardwareIgnoresReservedAndIdle : Obligations.HardwareIgnoresReservedAndIdle := by
  intro ps
  induction ps with
  | nil => exact fun r => rfl
  | cons p ps ih =>
    intro r
    cases hp : effectiveStep p with
    | false => rw [List.filter_cons_of_neg (by simp [hp]), hardwareRun, hardwareStep_of_not_effective hp, ih]
    | true => rw [List.filter_cons_of_pos hp, hardwareRun, hardwareRun, ih]

end Sys2Proof.Machine
end

section
/-! Reset and the ends of a run (70_reset_and_hazards.md rules R150, R152, R157, R158). -/

namespace Sys2Proof.Machine

/-- While the host has a word left and presents in every step, the step performs it: `pc` goes one on, whatever the word
(R25, R101, R131). -/
theorem step_advances_of_presenting {s : State} (hf : s.fault = none) (hport : s.port = [])
    (hpc : s.pc < s.program.length) :
    ∃ t, step s = .next t ∧ t.pc = s.pc + 1 ∧ t.program = s.program ∧ t.port = [] := by
  have hdrive : currentDrive s = ⟨false, true⟩ := by simp [currentDrive, hport]
  have hcmd : (currentPins s).cmd = some s.program[s.pc] := by simp [currentPins, nextCommand, hdrive, hpc]
  obtain ⟨t, hperf, htpc, htprog, htport, -⟩ := everyWordAdvancesPcByOne s.program[s.pc] (consumeDrive s)
  refine ⟨t, ?_, htpc, htprog, ?_⟩
  · rw [step_of_word (by rw [hdrive]) hf hcmd, hperf]
  · rw [htport, consumeDrive_port, hport, List.tail_nil]

/-- From a state with `n` words left, by induction on `n`: each step takes one of them, and either the next state has one
word less to go or it holds the record that ends the run. -/
theorem run_ends_within_words_left (n : Nat) {s : State} (hf : s.fault = none) (hport : s.port = [])
    (hleft : s.pc + n = s.program.length) :
    ∃ (k : Nat) (t : State), k ≤ n ∧ core.run k s = .next t ∧ t.program = s.program ∧ (Finished t ∨ Faulted t) := by
  induction n generalizing s with
  | zero => exact ⟨0, s, le_rfl, core_run_zero s, rfl, .inl ⟨hleft, hf⟩⟩
  | succ n ih =>
    obtain ⟨u, hstep, hupc, huprog, huport⟩ := step_advances_of_presenting hf hport (by omega)
    by_cases huf : u.fault = none
    · obtain ⟨k, t, hk, hrun, htprog, hend⟩ := ih huf huport (by rw [hupc, huprog]; omega)
      exact ⟨k + 1, t, Nat.succ_le_succ hk, (core_run_next hstep k).trans hrun, htprog.trans huprog, hend⟩
    · exact ⟨1, u, n.succ_pos, core_run_next hstep 0, huprog, .inr huf⟩

/-- Settles O29: in a start state the words left are the whole program. -/
theorem everyRunEnds : Obligations.EveryRunEnds := by
  intro s ⟨hpc, hf, hport⟩
  exact run_ends_within_words_left s.program.length hf hport (by rw [hpc, Nat.zero_add])

/-- Settles O24: the step with `rst = 1` is `applyReset`, and the hardware's reset asks neither for a word nor for the
registers. -/
theorem resetWinsOverCommand : Obligations.ResetWinsOverCommand :=
  ⟨fun _ hr => ⟨_, step_of_reset hr, rfl, rfl, rfl, rfl, rfl⟩, fun _ r => hardwareStep_of_reset rfl r⟩

/-- A reset leaves no instance of a block out (R138, R150). -/
theorem eq_applyReset_of_blockReset {b : Block} {k : Nat} {s : State} (h : (blockReset b).engines[k]? = some s) :
    ∃ u, s = applyReset u := by
  rw [blockReset, List.getElem?_map, Option.map_eq_some_iff] at h
  obtain ⟨u, -, rfl⟩ := h
  exact ⟨u, rfl⟩

/-- The parameter counts the instances beyond the first (R6, R138). -/
theorem one_le_length_reset_engines : 1 ≤ Block.reset.engines.length := by
  rw [Block.reset, List.length_replicate, Config.nEngines]
  exact Nat.succ_pos _

/-- Settles O25: one instance by its fields, a block that is reset instance by instance. -/
theorem resetState : Obligations.ResetState := by
  refine ⟨⟨rfl, rfl, rfl, rfl⟩, fun _ => rfl, fun b k s h => ?_, fun _ hs => List.eq_of_mem_replicate hs,
    one_le_length_reset_engines, fun _ _ => rfl⟩
  obtain ⟨u, rfl⟩ := eq_applyReset_of_blockReset h
  exact ⟨rfl, rfl, rfl, rfl⟩

/-- Settles O27: `pc = 0` is within every program, and without a record there is nothing to be sound. -/
theorem startStatesMeetRunInv : Obligations.StartStatesMeetRunInv := by
  refine ⟨⟨rfl, rfl, rfl⟩, fun s ⟨hpc, hf, _⟩ => ?_⟩
  exact runInv_of_no_fault (hpc.trans_le (Nat.zero_le _)) hf

end Sys2Proof.Machine
end

section
/-! The decode vectors V-DEC1 to V-DEC14 (95_test_vectors.md). -/

namespace Sys2Proof

/-- Settles O12: a listed command's word is its encoding (R65), and a listed reserved word lies in its class's range
(R63). -/
theorem sampleWordsDecode : Obligations.SampleWordsDecode := by
  refine ⟨decode_encode .nop, ?_, decode_encode .init, ?_, decode_encode (.fold 0x00#8),
    decode_encode (.fold 0x61#8), decode_encode (.fold 0xFF#8), decode_encode .final, ?_,
    decode_encode (.romrd 0x00#8), decode_encode (.romrd 0xFF#8), ?_, ?_, ?_⟩
  all_goals exact decode_of_reserved_range (by decide) (by decide)

end Sys2Proof
end
